-- ==== Sys2Proof/Word.lean ====
section
/-!
DEFINITION. The widths of the block's values (spec/00_scope.md R6, R8, R9): a byte, a 16-bit word, a
12-bit address field, a 4-bit count and a register number. All values are unsigned.
-/

namespace Sys2Proof

/-- An 8-bit value: a register, a timer, a memory byte, the `NN` field (R6, R101). -/
abbrev Byte := BitVec 8

/-- A 16-bit value: `PC`, `I`, a stack slot, `IW`, an instruction word (R6). -/
abbrev Word := BitVec 16

/-- The 12-bit address field `NNN` (R101). -/
abbrev Addr12 := BitVec 12

/-- The 4-bit count field `N` (R101). -/
abbrev Nibble := BitVec 4

/-- A register number 0..15, naming `V[0]..V[15]` (R30, R103). -/
abbrev Reg := Fin 16

/-- A key number 0..15, naming `KEY[0]..KEY[15]` (R41). -/
abbrev Key := Fin 16

end Sys2Proof
end

