-- ==== Sys2Proof/Syntax.lean ====
section
/-!
DEFINITION. The instructions of the block: one constructor for each of the 34 rows of
spec/opcode_table.json (spec/30_encoding.md R105), in the table's order. A field's type is exactly the
range its encoding admits (R101, R103), so every term is encodable.
-/

namespace Sys2Proof

/-- The 34 handlers of the base set (R2, R105). `x` and `y` are the register fields, `nn` the byte
immediate, `nnn` the address, `n` the row count. -/
inductive Instr where
  /-- 00E0, R270: clear the display. -/
  | cls
  /-- 00EE, R161: return from a subroutine. -/
  | ret
  /-- 1NNN, R160: jump. -/
  | jpAddr (nnn : Addr12)
  /-- 2NNN, R162: call a subroutine. -/
  | callAddr (nnn : Addr12)
  /-- 3XNN, R163: skip if `V[X] = NN`. -/
  | seByte (x : Reg) (nn : Byte)
  /-- 4XNN, R164: skip if `V[X] ≠ NN`. -/
  | sneByte (x : Reg) (nn : Byte)
  /-- 5XY0, R165: skip if `V[X] = V[Y]`. -/
  | seReg (x y : Reg)
  /-- 6XNN, R182: load an immediate. -/
  | ldByte (x : Reg) (nn : Byte)
  /-- 7XNN, R183: add an immediate, no flag. -/
  | addByte (x : Reg) (nn : Byte)
  /-- 8XY0, R184: copy a register. -/
  | ldReg (x y : Reg)
  /-- 8XY1, R185. -/
  | orReg (x y : Reg)
  /-- 8XY2, R186. -/
  | andReg (x y : Reg)
  /-- 8XY3, R187. -/
  | xorReg (x y : Reg)
  /-- 8XY4, R188: add with carry out. -/
  | addReg (x y : Reg)
  /-- 8XY5, R189: X minus Y with not-borrow. -/
  | subReg (x y : Reg)
  /-- 8XY6, R190: shift right by one; the Y field is encoded and ignored (R109, R115). -/
  | shr (x y : Reg)
  /-- 8XY7, R191: Y minus X with not-borrow. -/
  | subnReg (x y : Reg)
  /-- 8XYE, R192: shift left by one; the Y field is encoded and ignored (R109, R115). -/
  | shl (x y : Reg)
  /-- 9XY0, R166: skip if `V[X] ≠ V[Y]`. -/
  | sneReg (x y : Reg)
  /-- ANNN, R200: set the index register. -/
  | ldI (nnn : Addr12)
  /-- BNNN, R167: jump to `V[0] + NNN`. -/
  | jpV0 (nnn : Addr12)
  /-- CXNN, R221: random byte under a mask. -/
  | rnd (x : Reg) (nn : Byte)
  /-- DXYN, R232: draw a sprite of `n` rows. -/
  | drw (x y : Reg) (n : Nibble)
  /-- EX9E, R250: skip if the key is pressed. -/
  | skp (x : Reg)
  /-- EXA1, R251: skip if the key is not pressed. -/
  | sknp (x : Reg)
  /-- FX07, R260: read the delay timer. -/
  | ldVxDt (x : Reg)
  /-- FX0A, R252: wait for a key. -/
  | ldVxK (x : Reg)
  /-- FX15, R261: set the delay timer. -/
  | ldDtVx (x : Reg)
  /-- FX18, R262: set the sound timer. -/
  | ldStVx (x : Reg)
  /-- FX1E, R201: add a register into the index. -/
  | addI (x : Reg)
  /-- FX29, R202: the index of a font glyph. -/
  | ldF (x : Reg)
  /-- FX33, R203: decimal digits into memory. -/
  | ldB (x : Reg)
  /-- FX55, R204: store `V[0]..V[X]`. -/
  | ldStore (x : Reg)
  /-- FX65, R205: load `V[0]..V[X]`. -/
  | ldLoad (x : Reg)
deriving DecidableEq, Repr

end Sys2Proof
end

