-- ==== Sys2Proof/Config.lean ====
section
/-!
DEFINITION. The fixed parameters of the block (spec/00_scope.md R6, R7) and the one free value, the
random bytes the host offers (spec/44_random.md R220). The decided parameters of R6 whose value is a
behaviour are coded where they act: BNNN_MASK in Machine/Operands.lean, KEYWAIT_KEYS in
Machine/Operands.lean, SPRITE_EDGE in Machine/Drawing.lean, FONT in Machine/Font.lean.
-/

namespace Sys2Proof.Config

/-- `MEM_SIZE` (R6): addresses 0x000..0xFFF exist. -/
@[simp] def memSize : Nat := 0x1000

/-- `PROG_BASE` (R6): the load address and the reset value of `PC`; everything below it is reserved
(`RESERVED_END` = 0x1FF). -/
@[simp] def progBase : Nat := 0x200

/-- The largest program image: 0x200..0xFFF is 3584 bytes (R7, R346). -/
@[simp] def maxImage : Nat := 3584

/-- `FONT_BASE` (R6). -/
@[simp] def fontBase : Nat := 0x050

/-- `GLYPH_BYTES` (R6): bytes, and rows, of one glyph. -/
@[simp] def glyphBytes : Nat := 5

/-- The number of bytes of the font set, 16 glyphs of 5 bytes (R6, R72). -/
@[simp] def fontBytes : Nat := 80

/-- `FB_W` (R6). -/
@[simp] def fbWidth : Nat := 64

/-- `FB_H` (R6). -/
@[simp] def fbHeight : Nat := 32

/-- `STACK_SLOTS` (R6). -/
@[simp] def stackSlots : Nat := 16

/-- `WORD_BYTES` (R6), as the amount by which `PC` advances and skips. -/
@[simp] def wordBytes : Word := 2

/-- The byte the host offers as `rnd` for its n-th offer: a FREE VALUE, with no body, because the
generator is the host's and "the block promises nothing about the sequence" (R220, log 1). -/
opaque rndByte : Nat → Byte

end Sys2Proof.Config
end

