-- ==== Sys2Proof/WellFormed.lean ====
section
/-!
DEFINITION. What is well formed before it reaches the machine: a legal instruction word, by the match
and mask of the opcode map (spec/30_encoding.md R105, R111), and a program image the host may load
(spec/70_reset_and_hazards.md R346).

A term of `Instr` needs no check: its field types are exactly the ranges of R101 and R103.
-/

namespace Sys2Proof

/-- One row of the opcode map (R105): the word `w` is in the row iff `w AND mask = pattern`. -/
structure OpcodeRow where
  pattern : Word
  mask : Word
deriving DecidableEq, Repr

/-- A row whose class alone selects the handler (R104). -/
def classRow (pattern : Word) : OpcodeRow := ⟨pattern, 0xF000⟩

/-- A row selected by the class and the low nibble (R104: classes 0x0, 0x8, 0xE). -/
def nibbleRow (pattern : Word) : OpcodeRow := ⟨pattern, 0xF00F⟩

/-- A row selected by the class and the low byte (R104: class 0xF). -/
def byteRow (pattern : Word) : OpcodeRow := ⟨pattern, 0xF0FF⟩

/-- Rows 1 to 9 of R105. -/
def opcodeRowsLow : List OpcodeRow :=
  [nibbleRow 0x0000, nibbleRow 0x000E, classRow 0x1000, classRow 0x2000, classRow 0x3000,
   classRow 0x4000, classRow 0x5000, classRow 0x6000, classRow 0x7000]

/-- Rows 10 to 18 of R105, the class-8 forms. -/
def opcodeRowsAlu : List OpcodeRow :=
  [nibbleRow 0x8000, nibbleRow 0x8001, nibbleRow 0x8002, nibbleRow 0x8003, nibbleRow 0x8004,
   nibbleRow 0x8005, nibbleRow 0x8006, nibbleRow 0x8007, nibbleRow 0x800E]

/-- Rows 19 to 25 of R105. -/
def opcodeRowsMid : List OpcodeRow :=
  [classRow 0x9000, classRow 0xA000, classRow 0xB000, classRow 0xC000, classRow 0xD000,
   nibbleRow 0xE00E, nibbleRow 0xE001]

/-- Rows 26 to 34 of R105, the class-F forms. -/
def opcodeRowsF : List OpcodeRow :=
  [byteRow 0xF007, byteRow 0xF00A, byteRow 0xF015, byteRow 0xF018, byteRow 0xF01E,
   byteRow 0xF029, byteRow 0xF033, byteRow 0xF055, byteRow 0xF065]

/-- The opcode map, the 34 rows of R105 in order. -/
def opcodeMap : List OpcodeRow :=
  opcodeRowsLow ++ opcodeRowsAlu ++ opcodeRowsMid ++ opcodeRowsF

/-- The word `w` is in the row. -/
def OpcodeRow.covers (r : OpcodeRow) (w : Word) : Bool := w &&& r.mask == r.pattern

/-- A legal instruction word: some row of the opcode map covers it (R111). -/
def legalWord (w : Word) : Bool := opcodeMap.any (·.covers w)

/-- A program image the host may load: at most 3584 bytes (R346). -/
def imageFits (image : List Byte) : Bool := decide (image.length ≤ Config.maxImage)

end Sys2Proof
end

