-- ==== Sys2Proof/Decode.lean ====
section
/-!
DEFINITION. The decoder and, after it, the encoder (spec/30_encoding.md R100 to R115).

The decoder is the case split of R106 over the class nibble and the secondary selector; it never
consults `opcodeMap`, so that the two descriptions of the encoding can be compared. The selector values
are the spec's, marked there as general knowledge (D23, log 2).
-/

namespace Sys2Proof

/-- Why a sequence of bytes is no instruction. -/
inductive DecodeReject where
  /-- Fewer than the two bytes of a word (R100). -/
  | truncated
  /-- Class 0x0 with a low nibble other than 0x0, 0xE (R111). -/
  | unmappedClass0
  /-- Class 0x8 with an unmapped low nibble (R111). -/
  | unmappedClass8
  /-- Class 0xE with a low nibble other than 0x1, 0xE (R111). -/
  | unmappedClassE
  /-- Class 0xF with an unmapped low byte (R111). -/
  | unmappedClassF
deriving DecidableEq, Repr

/-- The primary opcode class `w[15:12]` (R101, R104). -/
def classOf (w : Word) : Nibble := w.extractLsb' 12 4

/-- The low nibble `w[3:0]`: the selector of classes 0x0, 0x8, 0xE, and the field `N` (R101, R104). -/
def lowNibble (w : Word) : Nibble := w.extractLsb' 0 4

/-- The field `X = w[11:8]` (R101). -/
def fieldX (w : Word) : Reg := (w.extractLsb' 8 4).toFin

/-- The field `Y = w[7:4]` (R101). -/
def fieldY (w : Word) : Reg := (w.extractLsb' 4 4).toFin

/-- The low byte `w[7:0]`: the field `NN`, and the selector of class 0xF (R101, R104). -/
def lowByte (w : Word) : Byte := w.extractLsb' 0 8

/-- The field `NNN = w[11:0]` (R101). -/
def fieldNNN (w : Word) : Addr12 := w.extractLsb' 0 12

/-- Class 0x0: the low nibble alone selects (R106, R108). -/
def decodeClass0 (w : Word) : Except DecodeReject Instr :=
  match lowNibble w with
  | 0x0#4 => .ok .cls
  | 0xE#4 => .ok .ret
  | _ => .error .unmappedClass0

/-- Class 0x8: the low nibble selects among the nine ALU forms (R106, R109). -/
def decodeClass8 (w : Word) : Except DecodeReject Instr :=
  match lowNibble w with
  | 0x0#4 => .ok (.ldReg (fieldX w) (fieldY w))
  | 0x1#4 => .ok (.orReg (fieldX w) (fieldY w))
  | 0x2#4 => .ok (.andReg (fieldX w) (fieldY w))
  | 0x3#4 => .ok (.xorReg (fieldX w) (fieldY w))
  | 0x4#4 => .ok (.addReg (fieldX w) (fieldY w))
  | 0x5#4 => .ok (.subReg (fieldX w) (fieldY w))
  | 0x6#4 => .ok (.shr (fieldX w) (fieldY w))
  | 0x7#4 => .ok (.subnReg (fieldX w) (fieldY w))
  | 0xE#4 => .ok (.shl (fieldX w) (fieldY w))
  | _ => .error .unmappedClass8

/-- Class 0xE: the low nibble alone selects (R106, R108). -/
def decodeClassE (w : Word) : Except DecodeReject Instr :=
  match lowNibble w with
  | 0xE#4 => .ok (.skp (fieldX w))
  | 0x1#4 => .ok (.sknp (fieldX w))
  | _ => .error .unmappedClassE

/-- Class 0xF: the low byte selects among the nine forms (R106, R109). -/
def decodeClassF (w : Word) : Except DecodeReject Instr :=
  match lowByte w with
  | 0x07#8 => .ok (.ldVxDt (fieldX w))
  | 0x0A#8 => .ok (.ldVxK (fieldX w))
  | 0x15#8 => .ok (.ldDtVx (fieldX w))
  | 0x18#8 => .ok (.ldStVx (fieldX w))
  | 0x1E#8 => .ok (.addI (fieldX w))
  | 0x29#8 => .ok (.ldF (fieldX w))
  | 0x33#8 => .ok (.ldB (fieldX w))
  | 0x55#8 => .ok (.ldStore (fieldX w))
  | 0x65#8 => .ok (.ldLoad (fieldX w))
  | _ => .error .unmappedClassF

/-- The decoder, total on every 16-bit word (R106). Classes 0x5 and 0x9 ignore their low nibble
(R107). The last arm is class 0xF, the one class left. -/
def decode (w : Word) : Except DecodeReject Instr :=
  match classOf w with
  | 0x0#4 => decodeClass0 w
  | 0x1#4 => .ok (.jpAddr (fieldNNN w))
  | 0x2#4 => .ok (.callAddr (fieldNNN w))
  | 0x3#4 => .ok (.seByte (fieldX w) (lowByte w))
  | 0x4#4 => .ok (.sneByte (fieldX w) (lowByte w))
  | 0x5#4 => .ok (.seReg (fieldX w) (fieldY w))
  | 0x6#4 => .ok (.ldByte (fieldX w) (lowByte w))
  | 0x7#4 => .ok (.addByte (fieldX w) (lowByte w))
  | 0x8#4 => decodeClass8 w
  | 0x9#4 => .ok (.sneReg (fieldX w) (fieldY w))
  | 0xA#4 => .ok (.ldI (fieldNNN w))
  | 0xB#4 => .ok (.jpV0 (fieldNNN w))
  | 0xC#4 => .ok (.rnd (fieldX w) (lowByte w))
  | 0xD#4 => .ok (.drw (fieldX w) (fieldY w) (lowNibble w))
  | 0xE#4 => decodeClassE w
  | _ => decodeClassF w

/-- Two bytes as one word, big-endian: the first byte is `w[15:8]` (R76). -/
def wordOfBytes (hi lo : Byte) : Word := hi ++ lo

/-- The decoder on a sequence of bytes: the instruction of its first word, and the rest (R100). -/
def decodeBytes : List Byte → Except DecodeReject (Instr × List Byte)
  | hi :: lo :: rest => (decode (wordOfBytes hi lo)).map (·, rest)
  | _ => .error .truncated

/-- A register number as its 4-bit field (R101). -/
def regBits (x : Reg) : Nibble := BitVec.ofFin x

/-- The instruction word of an instruction, in the standard spelling of R105. Bits the decoder
ignores are written as that spelling writes them (00E0, 00EE, 5XY0, 9XY0, EX9E, EXA1). -/
def encode : Instr → Word
  | .cls => 0x00E0
  | .ret => 0x00EE
  | .jpAddr nnn => 0x1#4 ++ nnn
  | .callAddr nnn => 0x2#4 ++ nnn
  | .seByte x nn => 0x3#4 ++ regBits x ++ nn
  | .sneByte x nn => 0x4#4 ++ regBits x ++ nn
  | .seReg x y => 0x5#4 ++ regBits x ++ regBits y ++ 0x0#4
  | .ldByte x nn => 0x6#4 ++ regBits x ++ nn
  | .addByte x nn => 0x7#4 ++ regBits x ++ nn
  | .ldReg x y => 0x8#4 ++ regBits x ++ regBits y ++ 0x0#4
  | .orReg x y => 0x8#4 ++ regBits x ++ regBits y ++ 0x1#4
  | .andReg x y => 0x8#4 ++ regBits x ++ regBits y ++ 0x2#4
  | .xorReg x y => 0x8#4 ++ regBits x ++ regBits y ++ 0x3#4
  | .addReg x y => 0x8#4 ++ regBits x ++ regBits y ++ 0x4#4
  | .subReg x y => 0x8#4 ++ regBits x ++ regBits y ++ 0x5#4
  | .shr x y => 0x8#4 ++ regBits x ++ regBits y ++ 0x6#4
  | .subnReg x y => 0x8#4 ++ regBits x ++ regBits y ++ 0x7#4
  | .shl x y => 0x8#4 ++ regBits x ++ regBits y ++ 0xE#4
  | .sneReg x y => 0x9#4 ++ regBits x ++ regBits y ++ 0x0#4
  | .ldI nnn => 0xA#4 ++ nnn
  | .jpV0 nnn => 0xB#4 ++ nnn
  | .rnd x nn => 0xC#4 ++ regBits x ++ nn
  | .drw x y n => 0xD#4 ++ regBits x ++ regBits y ++ n
  | .skp x => 0xE#4 ++ regBits x ++ 0x9E#8
  | .sknp x => 0xE#4 ++ regBits x ++ 0xA1#8
  | .ldVxDt x => 0xF#4 ++ regBits x ++ 0x07#8
  | .ldVxK x => 0xF#4 ++ regBits x ++ 0x0A#8
  | .ldDtVx x => 0xF#4 ++ regBits x ++ 0x15#8
  | .ldStVx x => 0xF#4 ++ regBits x ++ 0x18#8
  | .addI x => 0xF#4 ++ regBits x ++ 0x1E#8
  | .ldF x => 0xF#4 ++ regBits x ++ 0x29#8
  | .ldB x => 0xF#4 ++ regBits x ++ 0x33#8
  | .ldStore x => 0xF#4 ++ regBits x ++ 0x55#8
  | .ldLoad x => 0xF#4 ++ regBits x ++ 0x65#8

/-- The bytes of a word as memory holds them, `w[15:8]` first (R76). -/
def bytesOfWord (w : Word) : List Byte := [w.extractLsb' 8 8, w.extractLsb' 0 8]

/-- The bytes of an instruction, in memory order. -/
def encodeBytes (i : Instr) : List Byte := bytesOfWord (encode i)

/-- The instruction the decoder reads from the table word `w` of `nbits` bits: the word's bytes laid
out big-endian (R76) and given to the decoder. Every instruction is one 16-bit word (R100), and the
bits of `w` at and above `nbits` count as 0. -/
def decodeTableWord (nbits w : Nat) : Option Instr :=
  match decodeBytes (bytesOfWord (BitVec.ofNat 16 (w % 2 ^ nbits))) with
  | .ok (i, _) => some i
  | .error _ => none

end Sys2Proof
end

