-- ==== Sys2Proof/Machine/State.lean ====
section
/-!
DEFINITION. The state of the block as plain data (spec/10_state.md R30 to R60), the names of its six
faults (spec/60_exceptions.md R300), and the state after reset (R55, R340).
-/

namespace Sys2Proof.Machine

/-- The memory `M` (R70) as its listed cells, in one canonical form (`Memory.wf`, Machine/Ops.lean):
addresses strictly rising and below 0x1000, no cell equal to what an unlisted address reads as. An
unlisted address reads as its reset contents (`resetByte`, Machine/Font.lean). -/
abbrev Memory := List Host.Cell

/-- The framebuffer `FB[y][x]`: 32 rows of 64 cells, `true` is on (R40). -/
abbrev Framebuffer := Vector (Vector Bool 64) 32

/-- What an access to memory was for, as `FAULT.kind` records it (R50). -/
inductive AccessKind where
  | fetch
  | read
  | write
deriving DecidableEq, Repr

/-- The block's six faults with what each records (R300). The block takes a fault by going to a NEXT
state: the state before the step with `FAULT` latched (R310), where it halts (R51). No step and no
meaning ever answers `Outcome.fault`: that outcome would hide the latched state from a claim. Taking
each as a next state is safe: it is the entry R310 gives (log 3). -/
inductive Fault where
  /-- Code 1. Raised by the fetch and by DRW, FX33, FX55, FX65 at an address above 0xFFF (R80, R301).
  Safe: its entry is the spec's. -/
  | addressing (kind : AccessKind) (addr : Word)
  /-- Code 2. Raised by the decode phase for an unmapped selector (R302). Safe: its entry is the
  spec's. -/
  | decode
  /-- Code 3. Raised by CALL with `SP = 16` (R162, R303). Safe: its entry is the spec's. -/
  | stackOverflow
  /-- Code 4. Raised by RET with `SP = 0` (R161, R303). Safe: its entry is the spec's. -/
  | stackUnderflow
  /-- Code 5. Raised by FX33 and FX55 at an address below 0x200 (R81). Safe: its entry is the
  spec's. -/
  | reservedWrite (addr : Word)
  /-- Code 6. Raised by SKP and SKNP with `V[X] > 15` (R250, R251). Safe: its entry is the spec's. -/
  | keyRange (key : Byte)
deriving DecidableEq, Repr

/-- Why the model has no meaning for an instruction. Nothing in this model answers it: every row of the
opcode table has its meaning. -/
inductive Refusal where
  /-- Answered only by an arm of `exec` whose instruction has no meaning yet; there is none. It is
  safe: the model stops where the block goes on. -/
  | notModelled (mnemonic : String)
deriving DecidableEq, Repr

/-- The fault status register `FAULT`, 54 bits in six fields (R50). -/
structure FaultStatus where
  /-- 1 once a fault has been raised; the block is then halted (R51). -/
  active : Bool
  /-- 0 none, 1 to 6 the fault of R300. -/
  code : BitVec 3
  /-- For AddressingFault 0 fetch, 1 read, 2 write; else 0. -/
  kind : BitVec 2
  /-- `PC` at the start of the faulting step. -/
  pc : Word
  /-- The fetched word; 0 for a fetch fault. -/
  word : Word
  /-- The bad address, or the key value; else 0. -/
  addr : Word
deriving DecidableEq, Repr

/-- `FAULT` with every field 0, its reset value (R50, R55). -/
def FaultStatus.clear : FaultStatus := ⟨false, 0, 0, 0, 0, 0⟩

/-- Every piece of state the spec gives the block (R3, R10, R43), its two inputs held as the values the
host last offered (R41, R220), and one counter of the model's own. -/
structure State where
  /-- `V[0]..V[15]`, 8 bits each; `VF` is `V[15]` (R30, R31). -/
  v : Vector Byte 16
  /-- `I`, the 16-bit index register (R36). -/
  i : Word
  /-- `PC`, 16 bits (R34). -/
  pc : Word
  /-- `SP`, the number of occupied stack slots, 0..16 (R37, R45). -/
  sp : Fin 17
  /-- `STACK[0]..STACK[15]`, 16 bits each, apart from `M` (R37, R38). -/
  stack : Vector Word 16
  /-- `M`, 4096 bytes (R70). -/
  mem : Memory
  /-- `DT`, the delay timer (R39). -/
  dt : Byte
  /-- `ST`, the sound timer (R39). -/
  st : Byte
  /-- `FB`, 64 x 32 one-bit cells (R40). -/
  fb : Framebuffer
  /-- `KEY[0]..KEY[15]`, written by the host between steps (R41). -/
  key : Vector Bool 16
  /-- `IW`, the word last fetched (R42). -/
  iw : Word
  /-- `FAULT` (R50). -/
  fault : FaultStatus
  /-- The `rnd` input: the byte the host offers to the coming step (R60, R220). -/
  rnd : Byte
  /-- THE MODEL'S OWN field: the number of the offer `rnd` holds, read to draw the next free byte
  (log 1). -/
  rndSeq : Nat
deriving DecidableEq, Repr

/-- The state after reset (R55, R340, R341). Memory lists nothing: an unlisted address reads as its
reset contents, the font set at 0x050..0x09F and 0 elsewhere. The first offered byte is free (log 1). -/
def State.reset : State where
  v := Vector.replicate 16 0
  i := 0
  pc := 0x200
  sp := 0
  stack := Vector.replicate 16 0
  mem := []
  dt := 0
  st := 0
  fb := Vector.replicate 32 (Vector.replicate 64 false)
  key := Vector.replicate 16 false
  iw := 0
  fault := FaultStatus.clear
  rnd := Config.rndByte 0
  rndSeq := 0

end Sys2Proof.Machine
end

