-- ==== Sys2Proof/Machine/Font.lean ====
section
/-!
DEFINITION. The font set and the reset contents of memory (spec/20_memory.md R72, R84). The bytes are
the spec's default for its parameter FONT, which it takes from general knowledge (D26, log 4).
-/

namespace Sys2Proof.Machine

/-- Glyphs 0 to 7, five rows each, top row first (R84). -/
def fontLow : List Byte :=
  [0xF0, 0x90, 0x90, 0x90, 0xF0] ++ [0x20, 0x60, 0x20, 0x20, 0x70] ++
  [0xF0, 0x10, 0xF0, 0x80, 0xF0] ++ [0xF0, 0x10, 0xF0, 0x10, 0xF0] ++
  [0x90, 0x90, 0xF0, 0x10, 0x10] ++ [0xF0, 0x80, 0xF0, 0x10, 0xF0] ++
  [0xF0, 0x80, 0xF0, 0x90, 0xF0] ++ [0xF0, 0x10, 0x20, 0x40, 0x40]

/-- Glyphs 8 to F (R84). -/
def fontHigh : List Byte :=
  [0xF0, 0x90, 0xF0, 0x90, 0xF0] ++ [0xF0, 0x90, 0xF0, 0x10, 0xF0] ++
  [0xF0, 0x90, 0xF0, 0x90, 0x90] ++ [0xE0, 0x90, 0xE0, 0x90, 0xE0] ++
  [0xF0, 0x80, 0x80, 0x80, 0xF0] ++ [0xE0, 0x90, 0x90, 0x90, 0xE0] ++
  [0xF0, 0x80, 0xF0, 0x80, 0xF0] ++ [0xF0, 0x80, 0xF0, 0x80, 0x80]

/-- `FONT[k]`, k 0..79 (R84, R340). -/
def fontByte (k : Nat) : Byte := (fontLow ++ fontHigh)[k]?.getD 0

/-- The reset contents of address `a`, which is what an unlisted address reads as: the font set at
0x050..0x09F, 0 elsewhere (R55, R72, R340). -/
def resetByte (a : Nat) : Byte :=
  if Config.fontBase ≤ a ∧ a < Config.fontBase + Config.fontBytes then fontByte (a - Config.fontBase)
  else 0

end Sys2Proof.Machine
end

