-- ==== Sys2Proof/Machine/Ops.lean ====
section
/-!
DEFINITION. The named operations over memory and registers, and TAKING A FAULT as one shared operation
(spec/00_scope.md R10, R11; spec/20_memory.md R75 to R82; spec/60_exceptions.md R300, R310).
-/

namespace Sys2Proof.Machine

/-- The answer of a meaning. -/
abbrev Answer := Host.Outcome State Fault Refusal

/-! ### Memory -/

/-- The canonical form of memory: every listed address exists, the addresses rise strictly from above
`low`, and no listed byte is what its address reads as unlisted. -/
def Memory.wfFrom (low : Nat) : Memory → Bool
  | [] => true
  | (a, b) :: rest =>
    decide (low ≤ a ∧ a < Config.memSize) && b != resetByte a && Memory.wfFrom (a + 1) rest

/-- Memory is in canonical form. -/
def Memory.wf (m : Memory) : Bool := Memory.wfFrom 0 m

/-- `M[a]`: the listed byte, else the reset contents. -/
def Memory.peek (m : Memory) (a : Nat) : Byte :=
  match m with
  | [] => resetByte a
  | (a', b) :: rest => if a = a' then b else Memory.peek rest a

/-- List the byte `b` at `a` in front of `rest`, unless it is what `a` reads as unlisted. -/
def Memory.cons (a : Nat) (b : Byte) (rest : Memory) : Memory :=
  if b = resetByte a then rest else (a, b) :: rest

/-- The cells after the byte at `a` becomes `b`, kept in canonical form. -/
def Memory.insert (a : Nat) (b : Byte) : Memory → Memory
  | [] => Memory.cons a b []
  | (a', b') :: rest =>
    if a < a' then Memory.cons a b ((a', b') :: rest)
    else if a = a' then Memory.cons a b rest
    else (a', b') :: Memory.insert a b rest

/-- `M[a] ← b` with no check but that the address exists; there is no cell above 0xFFF to change (R70).
The checked write of the instructions is `memWrite`; the host's load uses this one (R346). -/
def Memory.poke (m : Memory) (a : Nat) (b : Byte) : Memory :=
  if a < Config.memSize then Memory.insert a b m else m

/-- A run of bytes at ascending addresses from `a` (R346). -/
def Memory.pokes (m : Memory) (a : Nat) : List Byte → Memory
  | [] => m
  | b :: rest => Memory.pokes (m.poke a b) (a + 1) rest

/-- An address as `FAULT.addr` records it, `a mod 2^16` (R80). -/
def addrOf (a : Nat) : Word := BitVec.ofNat 16 a

/-- `MemRead(a, 1)` (R11, R80). -/
def memRead (a : Nat) (m : Memory) : Except Fault Byte :=
  if a < Config.memSize then .ok (m.peek a) else .error (.addressing .read (addrOf a))

/-- `MemWrite(a, 1, b)`: the "above 0xFFF" test comes before the "below 0x200" test (R11, R80, R81,
R306). -/
def memWrite (a : Nat) (b : Byte) (m : Memory) : Except Fault Memory :=
  if a < Config.memSize then
    if a < Config.progBase then .error (.reservedWrite (addrOf a)) else .ok (m.poke a b)
  else .error (.addressing .write (addrOf a))

/-- `Fetch16(a) = M[a] * 256 + M[a+1]`, big-endian, at any parity (R76, R79, R80). -/
def fetch16 (a : Nat) (m : Memory) : Except Fault Word :=
  if a + 1 < Config.memSize then .ok (m.peek a ++ m.peek (a + 1))
  else .error (.addressing .fetch (addrOf a))

/-- `MemRead` of `n` bytes at ascending addresses from `a`: the lowest bad offset is reported (R205,
R232, R306). -/
def loadBytes (a : Nat) (m : Memory) : Nat → Except Fault (List Byte)
  | 0 => .ok []
  | n + 1 =>
    match memRead a m with
    | .error f => .error f
    | .ok b =>
      match loadBytes (a + 1) m n with
      | .error f => .error f
      | .ok rest => .ok (b :: rest)

/-- `MemWrite` of a list of bytes at ascending addresses from `a`: the lowest bad offset is reported,
and then nothing is written (R203, R204, R306, R148). -/
def storeBytes (a : Nat) (m : Memory) : List Byte → Except Fault Memory
  | [] => .ok m
  | b :: rest =>
    match memWrite a b m with
    | .error f => .error f
    | .ok m' => storeBytes (a + 1) m' rest

/-! ### Registers -/

/-- `VF`, the flag register (R6, R31). -/
def flagReg : Reg := 15

/-- `V[x]` (R10). -/
def readV (s : State) (x : Reg) : Byte := s.v[x.val]

/-- `V[x] ← b` (R10). No register is hardwired (R30). -/
def writeV (x : Reg) (b : Byte) (s : State) : State := { s with v := s.v.set x.val b }

/-- `V[k], V[k+1], … ←` the bytes in order, for the register numbers that exist (R205). -/
def fillV (k : Nat) (bytes : List Byte) (v : Vector Byte 16) : Vector Byte 16 :=
  match bytes with
  | [] => v
  | b :: rest => fillV (k + 1) rest (if h : k < 16 then v.set k b else v)

/-- `V[0]..V[x]`, in order (R204). -/
def blockV (s : State) (x : Reg) : List Byte := s.v.toList.take (x.val + 1)

/-- A skip: `PC ← (PC + 2) mod 2^16` if the condition holds (R163 to R166, R250, R251). -/
def skipIf (c : Bool) (s : State) : State := { s with pc := if c then s.pc + Config.wordBytes else s.pc }

/-! ### Taking a fault -/

/-- `FAULT.code` (R300). -/
def faultCode : Fault → BitVec 3
  | .addressing _ _ => 1
  | .decode => 2
  | .stackOverflow => 3
  | .stackUnderflow => 4
  | .reservedWrite _ => 5
  | .keyRange _ => 6

/-- `FAULT.kind` (R50, R300). -/
def faultKind : Fault → BitVec 2
  | .addressing .fetch _ => 0
  | .addressing .read _ => 1
  | .addressing .write _ => 2
  | _ => 0

/-- `FAULT.addr` (R50, R300). -/
def faultAddr : Fault → Word
  | .addressing _ a => a
  | .reservedWrite a => a
  | .keyRange k => k.setWidth 16
  | _ => 0

/-- The record a fault leaves for the word `w` fetched from `pc0` (R50, R310). -/
def faultRecord (f : Fault) (pc0 w : Word) : FaultStatus :=
  ⟨true, faultCode f, faultKind f, pc0, w, faultAddr f⟩

/-- FAULT ENTRY (R310): of the state `s` before the faulting step only `FAULT` changes. Control goes
nowhere, because the block halts (R51). There is no return from a fault (R311). -/
def enterFault (f : Fault) (pc0 w : Word) (s : State) : State := { s with fault := faultRecord f pc0 w }

/-- `raise F(info)` inside a handler (R11). The handler runs on the step's working copy, whose `PC` is
`pc0 + 2` and whose `IW` is the word (R142, R143); nothing the handler computed so far is kept, and
`commit` (Machine/Engine.lean) discards the working copy itself (R148, R149). -/
def raise (f : Fault) (s : State) : Answer := .next (enterFault f (s.pc - Config.wordBytes) s.iw s)

end Sys2Proof.Machine
end

