-- ==== Sys2Proof/Machine/Flags.lean ====
section
/-!
DEFINITION. The flag outputs, all written to VF (spec/10_state.md R44; spec/42_register_alu.md R180,
R181), and the order in which a flag and a result are written.
-/

namespace Sys2Proof.Machine

/-- A flag as VF holds it, 1 or 0 (R44). -/
def flagByte (c : Bool) : Byte := if c then 1 else 0

/-- Carry of `a + b`: the 9-bit sum is above 255 (R188). -/
def carryOut (a b : Byte) : Bool := decide (a.toNat + b.toNat > 255)

/-- Not-borrow of `a - b`: the minuend is at least the subtrahend (R189, R191). -/
def notBorrow (a b : Byte) : Bool := decide (a.toNat ≥ b.toNat)

/-- The bit a right shift by one shifts out, bit 0 (R190). -/
def outRight (a : Byte) : Bool := a.getLsbD 0

/-- The bit a left shift by one shifts out, bit 7 (R192). -/
def outLeft (a : Byte) : Bool := a.getLsbD 7

/-- `VF ← flag`, then `V[x] ← r`: with `x = 0xF` the final VF is the result (R181, D13). -/
def writeFlagged (x : Reg) (flag : Bool) (r : Byte) (s : State) : State :=
  writeV x r (writeV flagReg (flagByte flag) s)

end Sys2Proof.Machine
end

