-- ==== Sys2Proof/Machine/Alu.lean ====
section
/-!
DEFINITION. Register load and ALU instructions (spec/42_register_alu.md R180 to R192). Results are
taken `mod 256`; operands are read before anything is written (R146, R181).
-/

namespace Sys2Proof.Machine

/-- LD Vx, byte (R182). -/
def execLdByte (x : Reg) (nn : Byte) (s : State) : Answer := .next (writeV x nn s)

/-- ADD Vx, byte (R183): no flag. -/
def execAddByte (x : Reg) (nn : Byte) (s : State) : Answer := .next (writeV x (readV s x + nn) s)

/-- LD Vx, Vy (R184). -/
def execLdReg (x y : Reg) (s : State) : Answer := .next (writeV x (readV s y) s)

/-- OR Vx, Vy (R185): VF is not written as a flag (D14). -/
def execOrReg (x y : Reg) (s : State) : Answer := .next (writeV x (readV s x ||| readV s y) s)

/-- AND Vx, Vy (R186): VF is not written as a flag (D14). -/
def execAndReg (x y : Reg) (s : State) : Answer := .next (writeV x (readV s x &&& readV s y) s)

/-- XOR Vx, Vy (R187): VF is not written as a flag (D14). -/
def execXorReg (x y : Reg) (s : State) : Answer := .next (writeV x (readV s x ^^^ readV s y) s)

/-- ADD Vx, Vy (R188): VF is the carry. -/
def execAddReg (x y : Reg) (s : State) : Answer :=
  .next (writeFlagged x (carryOut (readV s x) (readV s y)) (readV s x + readV s y) s)

/-- SUB Vx, Vy (R189): VF is the not-borrow of X - Y. -/
def execSubReg (x y : Reg) (s : State) : Answer :=
  .next (writeFlagged x (notBorrow (readV s x) (readV s y)) (readV s x - readV s y) s)

/-- SHR Vx (R190): VF is the bit shifted out; the Y field is not read (D15). -/
def execShr (x _y : Reg) (s : State) : Answer :=
  .next (writeFlagged x (outRight (readV s x)) (readV s x >>> 1) s)

/-- SUBN Vx, Vy (R191): VF is the not-borrow of Y - X. -/
def execSubnReg (x y : Reg) (s : State) : Answer :=
  .next (writeFlagged x (notBorrow (readV s y) (readV s x)) (readV s y - readV s x) s)

/-- SHL Vx (R192): VF is the bit shifted out; the Y field is not read (D15). -/
def execShl (x _y : Reg) (s : State) : Answer :=
  .next (writeFlagged x (outLeft (readV s x)) (readV s x <<< 1) s)

end Sys2Proof.Machine
end

