-- ==== Sys2Proof/Machine/Operands.lean ====
section
/-!
DEFINITION. The operand forms of the instructions (spec/30_encoding.md R101, R103): how a field or a
register becomes an address, a jump target, a screen position or a key number. Register operands are
`readV`, byte immediates are used as they are.
-/

namespace Sys2Proof.Machine

/-- `zext_16(NNN)` (R103). -/
def zextAddr (nnn : Addr12) : Word := nnn.setWidth 16

/-- The target of JP V0: `(V[0] + NNN) mod 0x1000`, the mask over the whole sum (R167, D8). -/
def indexedTarget (v0 : Byte) (nnn : Addr12) : Word := BitVec.ofNat 16 ((v0.toNat + nnn.toNat) % 0x1000)

/-- The address `I + k`, on integers: it cannot wrap into low memory (R75). -/
def indexAddr (s : State) (k : Nat) : Nat := s.i.toNat + k

/-- The address of the glyph of a register's low 4 bits: `0x050 + 5 * (V[X] mod 16)` (R202). -/
def glyphAddr (b : Byte) : Word := BitVec.ofNat 16 (Config.fontBase + Config.glyphBytes * (b.toNat % 16))

/-- The decimal digits of a byte as LD B stores them: hundreds, tens, ones (R203). -/
def bcdDigits (b : Byte) : List Byte :=
  [BitVec.ofNat 8 (b.toNat / 100), BitVec.ofNat 8 (b.toNat / 10 % 10), BitVec.ofNat 8 (b.toNat % 10)]

/-- The start column of a sprite, `V[X] mod 64` (R231). -/
def startColumn (b : Byte) : Nat := b.toNat % Config.fbWidth

/-- The start row of a sprite, `V[Y] mod 32` (R231). -/
def startRow (b : Byte) : Nat := b.toNat % Config.fbHeight

/-- The key a register names, if it names one (R250, R251, D18). -/
def keyNumber (b : Byte) : Option Key := if h : b.toNat < 16 then some ⟨b.toNat, h⟩ else none

/-- `KEY[k] = 1` (R41). -/
def pressed (s : State) (k : Key) : Bool := s.key[k.val]

/-- The lowest pressed key of 0..15, if any is pressed (R252, D9: all sixteen keys are scanned). -/
def lowestPressed (s : State) : Option Key := (List.finRange 16).find? (pressed s)

end Sys2Proof.Machine
end

