-- ==== Sys2Proof/Machine/ControlFlow.lean ====
section
/-!
DEFINITION. The control-flow instructions (spec/41_control_flow.md R160 to R167). Each runs in the
execute phase: `PC` already holds `pc0 + 2` (R143).
-/

namespace Sys2Proof.Machine

/-- JP addr (R160). -/
def execJpAddr (nnn : Addr12) (s : State) : Answer := .next { s with pc := zextAddr nnn }

/-- RET (R161): StackUnderflow at `SP = 0`; else `SP ← SP - 1; PC ← STACK[SP]`. The popped slot keeps
its value (R38). -/
def execRet (s : State) : Answer :=
  if h : s.sp.val = 0 then raise .stackUnderflow s
  else .next { s with sp := ⟨s.sp.val - 1, by omega⟩, pc := s.stack[s.sp.val - 1] }

/-- CALL addr (R162): StackOverflow at `SP = 16`; else `STACK[SP] ← PC; SP ← SP + 1; PC ← NNN`. -/
def execCallAddr (nnn : Addr12) (s : State) : Answer :=
  if h : s.sp.val = 16 then raise .stackOverflow s
  else .next { s with
    stack := s.stack.set s.sp.val s.pc, sp := ⟨s.sp.val + 1, by omega⟩, pc := zextAddr nnn }

/-- SE Vx, byte (R163). -/
def execSeByte (x : Reg) (nn : Byte) (s : State) : Answer := .next (skipIf (readV s x == nn) s)

/-- SNE Vx, byte (R164). -/
def execSneByte (x : Reg) (nn : Byte) (s : State) : Answer := .next (skipIf (readV s x != nn) s)

/-- SE Vx, Vy (R165). -/
def execSeReg (x y : Reg) (s : State) : Answer := .next (skipIf (readV s x == readV s y) s)

/-- SNE Vx, Vy (R166). -/
def execSneReg (x y : Reg) (s : State) : Answer := .next (skipIf (readV s x != readV s y) s)

/-- JP V0, addr (R167): always `V[0]`, whatever `w[11:8]` holds. -/
def execJpV0 (nnn : Addr12) (s : State) : Answer :=
  .next { s with pc := indexedTarget (readV s 0) nnn }

end Sys2Proof.Machine
end

