-- ==== Sys2Proof/Machine/Display.lean ====
section
/-!
DEFINITION. The display clear instruction (spec/48_display_clear.md R270).
-/

namespace Sys2Proof.Machine

/-- A framebuffer with every cell off (R270). -/
def clearScreen : Framebuffer := Vector.replicate 32 (Vector.replicate 64 false)

/-- CLS (R270): VF, `I` and memory are not touched. -/
def execCls (s : State) : Answer := .next { s with fb := clearScreen }

end Sys2Proof.Machine
end

