-- ==== Sys2Proof/Machine/Drawing.lean ====
section
/-!
DEFINITION. The sprite-XOR framebuffer engine, its collision comparator, and DRW (spec/45_drawing.md
R230 to R237), as the loops of R232's pseudocode.
-/

namespace Sys2Proof.Machine

/-- The engine's working values: the framebuffer so far and the collision bit so far. -/
abbrev Canvas := Framebuffer × Bool

/-- One sprite pixel at column `x`, row `y`: an on pixel inside the screen is compared with its cell
and XORed into it; a pixel past the right or bottom edge is clipped (R232, R233, R234). -/
def drawPixel (y x : Nat) (on : Bool) (c : Canvas) : Canvas :=
  if h : y < 32 ∧ x < 64 then
    if on then (c.1.set y (c.1[y].set x (!c.1[y][x])), c.2 || c.1[y][x]) else c
  else c

/-- The pixels of one sprite byte from column offset `k` on, `n` of them: pixel `k` is bit `7 - k`, bit
7 leftmost (R230). -/
def drawPixels (y x0 : Nat) (row : Byte) (k : Nat) : Nat → Canvas → Canvas
  | 0, c => c
  | n + 1, c => drawPixels y x0 row (k + 1) n (drawPixel y (x0 + k) (row.getLsbD (7 - k)) c)

/-- One row of the sprite, 8 pixels wide (R230). -/
def drawRow (y x0 : Nat) (row : Byte) (c : Canvas) : Canvas := drawPixels y x0 row 0 8 c

/-- The rows of the sprite from row `y` down (R232). -/
def drawRows (y x0 : Nat) : List Byte → Canvas → Canvas
  | [], c => c
  | row :: rest, c => drawRows (y + 1) x0 rest (drawRow y x0 row c)

/-- DRW Vx, Vy, nibble (R232): every row is read, even a clipped one, and a bad address faults with
nothing drawn; VF becomes the collision bit, also for zero rows (R235, R236). -/
def execDrw (x y : Reg) (n : Nibble) (s : State) : Answer :=
  match loadBytes (indexAddr s 0) s.mem n.toNat with
  | .error f => raise f s
  | .ok rows =>
    let c := drawRows (startRow (readV s y)) (startColumn (readV s x)) rows (s.fb, false)
    .next (writeV flagReg (flagByte c.2) { s with fb := c.1 })

end Sys2Proof.Machine
end

