-- ==== Sys2Proof/Machine/Input.lean ====
section
/-!
DEFINITION. Keypad input instructions (spec/46_input.md R250 to R252).
-/

namespace Sys2Proof.Machine

/-- SKP Vx (R250): KeyRangeFault if `V[X]` names no key. -/
def execSkp (x : Reg) (s : State) : Answer :=
  match keyNumber (readV s x) with
  | none => raise (.keyRange (readV s x)) s
  | some k => .next (skipIf (pressed s k) s)

/-- SKNP Vx (R251): KeyRangeFault if `V[X]` names no key. -/
def execSknp (x : Reg) (s : State) : Answer :=
  match keyNumber (readV s x) with
  | none => raise (.keyRange (readV s x)) s
  | some k => .next (skipIf (!pressed s k) s)

/-- LD Vx, K (R252): with no key pressed `PC` goes back to the word, which runs again next step; else
the lowest pressed key. -/
def execLdVxK (x : Reg) (s : State) : Answer :=
  match lowestPressed s with
  | none => .next { s with pc := s.pc - Config.wordBytes }
  | some k => .next (writeV x (BitVec.ofNat 8 k.val) s)

end Sys2Proof.Machine
end

