-- ==== Sys2Proof/Machine/MemIndex.lean ====
section
/-!
DEFINITION. Memory and index instructions (spec/43_memory_index.md R200 to R205). The one addressing
mode is `I + k`; `I` is written by the first three only (R36, D16).
-/

namespace Sys2Proof.Machine

/-- LD I, addr (R200). -/
def execLdI (nnn : Addr12) (s : State) : Answer := .next { s with i := zextAddr nnn }

/-- ADD I, Vx (R201): mod 2^16, no flag (D17). -/
def execAddI (x : Reg) (s : State) : Answer := .next { s with i := s.i + (readV s x).setWidth 16 }

/-- LD F, Vx (R202). -/
def execLdF (x : Reg) (s : State) : Answer := .next { s with i := glyphAddr (readV s x) }

/-- LD B, Vx (R203): the three digits at `I`, `I+1`, `I+2`, or the first bad address's fault and
nothing written. -/
def execLdB (x : Reg) (s : State) : Answer :=
  match storeBytes (indexAddr s 0) s.mem (bcdDigits (readV s x)) with
  | .error f => raise f s
  | .ok m => .next { s with mem := m }

/-- LD [I], Vx (R204): `V[0]..V[X]` at `I..I+X`, or the first bad address's fault and nothing
written. -/
def execLdStore (x : Reg) (s : State) : Answer :=
  match storeBytes (indexAddr s 0) s.mem (blockV s x) with
  | .error f => raise f s
  | .ok m => .next { s with mem := m }

/-- LD Vx, [I] (R205): all reads first, then `V[0]..V[X]`; a bad address faults and no register is
written. -/
def execLdLoad (x : Reg) (s : State) : Answer :=
  match loadBytes (indexAddr s 0) s.mem (x.val + 1) with
  | .error f => raise f s
  | .ok bytes => .next { s with v := fillV 0 bytes s.v }

end Sys2Proof.Machine
end

