-- ==== Sys2Proof/Machine/Random.lean ====
section
/-!
DEFINITION. The random instruction (spec/44_random.md R220, R221).
-/

namespace Sys2Proof.Machine

/-- `Rand8()`: the byte offered to this step (R11, R220). It is any value. -/
def rand8 (s : State) : Byte := s.rnd

/-- RND Vx, byte (R221). -/
def execRnd (x : Reg) (nn : Byte) (s : State) : Answer := .next (writeV x (rand8 s &&& nn) s)

end Sys2Proof.Machine
end

