-- ==== Sys2Proof/Machine/Timers.lean ====
section
/-!
DEFINITION. Timer instructions and the countdown unit (spec/47_timers.md R260 to R267).
-/

namespace Sys2Proof.Machine

/-- LD Vx, DT (R260): `DT` before this step's decay. -/
def execLdVxDt (x : Reg) (s : State) : Answer := .next (writeV x s.dt s)

/-- LD DT, Vx (R261). -/
def execLdDtVx (x : Reg) (s : State) : Answer := .next { s with dt := readV s x }

/-- LD ST, Vx (R262). -/
def execLdStVx (x : Reg) (s : State) : Answer := .next { s with st := readV s x }

/-- One countdown unit: down by one if above zero (R266). -/
def countDown (t : Byte) : Byte := if t.toNat > 0 then t - 1 else t

end Sys2Proof.Machine
end

