-- ==== Sys2Proof/Machine/Engine.lean ====
section
/-!
DEFINITION. The phases of the dispatch engine around the execute phase (spec/40_dispatch.md R140 to
R150) and the placing of an instruction word where the engine fetches. Machine/Step.lean only calls
them.
-/

namespace Sys2Proof.Machine

/-- The working copy the handler of the word `w` runs on: `IW ← w` (R142), `PC ← pc0 + 2` (R143). -/
def advance (w : Word) (s : State) : State := { s with iw := w, pc := s.pc + Config.wordBytes }

/-- The decay phase: both countdown units, once (R147, R266). -/
def decay (s : State) : State := { s with dt := countDown s.dt, st := countDown s.st }

/-- The host's next random offer: the next free byte takes the place of the one this step was offered
(R60, R220, log 1). -/
def nextOffer (s : State) : State :=
  { s with rnd := Config.rndByte (s.rndSeq + 1), rndSeq := s.rndSeq + 1 }

/-- What a step that has not faulted does after its handler. -/
def finish (s : State) : State := nextOffer (decay s)

/-- The end of a step of `s` whose handler answered `a`: if the handler raised a fault, the working
copy is discarded and only `FAULT` stays (R148, R149, R310); else decay (R147). -/
def commit (s : State) (a : Answer) : Answer :=
  match a with
  | .next t => if t.fault.active then .next { s with fault := t.fault } else .next (finish t)
  | .fault f => .fault f
  | .refused r => .refused r

/-- The decode and execute phases of the word `w` fetched by the step of `s` (R144, R145). -/
def runWord (w : Word) (s : State) : Answer :=
  match decode w with
  | .error _ => .next (enterFault .decode s.pc w s)
  | .ok i => commit s (exec i (advance w s))

/-- One step of a block that is not halted (R141, R149). -/
def runStep (s : State) : Answer :=
  match fetch16 s.pc.toNat s.mem with
  | .error f => .next (enterFault f s.pc 0 s)
  | .ok w => runWord w s

/-- The state with the table word `w` of `nbits` bits in the two bytes at `PC` (R76), where the next
step fetches: the host's load of one word. -/
def placeWord (s : State) (nbits w : Nat) : State :=
  { s with mem := s.mem.pokes s.pc.toNat (bytesOfWord (BitVec.ofNat 16 (w % 2 ^ nbits))) }

end Sys2Proof.Machine
end

