-- ==== Sys2Proof/Machine/Step.lean ====
section
/-!
DEFINITION. One `step` transaction (spec/40_dispatch.md R140, R149).
-/

namespace Sys2Proof.Machine

/-- One step: a halted block does nothing (R51); else fetch, advance, decode, execute, decay. -/
def step (s : State) : Host.Outcome State Fault Refusal :=
  if s.fault.active then .next s else runStep s

/-- `s` with the instruction word `w` where the next step fetches (log 5). -/
def State.withFetchWord (s : State) (nbits w : Nat) : State := placeWord s nbits w

end Sys2Proof.Machine
end

