-- ==== Sys2Proof/Machine/HostPort.lean ====
section
/-!
DEFINITION. The block's interface: the host's transactions other than `step`, and the outputs
(spec/10_state.md R60; spec/70_reset_and_hazards.md R340, R345, R346, R348). The host has no other
access to the state.
-/

namespace Sys2Proof.Machine

/-- `reset` (R340): every piece of the block's state to its reset value. The random offer is an input
and not state (R220), so the offers go on. -/
def hostReset (s : State) : State := { State.reset with rnd := s.rnd, rndSeq := s.rndSeq }

/-- `load(0x200, image)` (R346): the image copied verbatim from 0x200 up, or none if it is longer than
3584 bytes, the host's load error, which starts nothing (R304). -/
def hostLoad (image : List Byte) (s : State) : Option State :=
  if imageFits image then some { s with mem := s.mem.pokes Config.progBase image } else none

/-- `keys` (R41, R60, R348): the key states the host writes between steps. -/
def hostKeys (keys : Vector Bool 16) (s : State) : State := { s with key := keys }

/-- `rnd` (R60, R220): the byte the host offers to the coming step. -/
def hostRnd (b : Byte) (s : State) : State := { s with rnd := b }

/-- What the host can read between steps (R60). -/
structure Outputs where
  fb : Framebuffer
  dt : Byte
  st : Byte
  fault : FaultStatus
deriving DecidableEq, Repr

/-- The outputs of a state (R60, R150). -/
def outputs (s : State) : Outputs := ⟨s.fb, s.dt, s.st, s.fault⟩

end Sys2Proof.Machine
end

