-- ==== Sys2Proof/Safety.lean ====
section
/-!
DEFINITION. The terms claims use: the end conditions of a run (spec/70_reset_and_hazards.md R355), the
sessions a host may hold with the block (R345, R348), and the invariant of the machine.
-/

namespace Sys2Proof.Machine

/-- The block has faulted and is halted; never a successful end (R51, R355). -/
def Faulted (s : State) : Prop := s.fault.active = true

/-- Parked: not faulted, and the word at `PC` is a JP to `PC` itself (R355). -/
def Parked (s : State) : Prop :=
  s.fault.active = false ∧
  ∃ nnn : Addr12, fetch16 s.pc.toNat s.mem = .ok (encode (.jpAddr nnn)) ∧ s.pc = zextAddr nnn

/-- Where a session stands: `load` is allowed only between reset and the first step (R346, R348). -/
inductive Phase where
  | afterReset
  | afterLoad
  | running
deriving DecidableEq, Repr

/-- The states a host that keeps its duties can bring the block to (R345, R348): reset first; at most
one load, before the first step; keys and random offers between steps; steps and resets at any time. -/
inductive Session : Phase → State → Prop where
  | start : Session .afterReset State.reset
  | reset {p : Phase} {s : State} : Session p s → Session .afterReset (hostReset s)
  | load {s t : State} {image : List Byte} :
      Session .afterReset s → hostLoad image s = some t → Session .afterLoad t
  | keys {p : Phase} {s : State} (k : Vector Bool 16) : Session p s → Session p (hostKeys k s)
  | rnd {p : Phase} {s : State} (b : Byte) : Session p s → Session p (hostRnd b s)
  | step {p : Phase} {s t : State} : Session p s → step s = .next t → Session .running t

/-- The reserved bytes 0x000..0x1FF, the font set among them, hold their reset contents: the font set
is "never mutated" (R72, R81). -/
def ReservedIntact (s : State) : Prop := ∀ a : Nat, a < Config.progBase → s.mem.peek a = resetByte a

/-- `FAULT` is either clear or a record that R50 and R300 allow: a code 1..6, and a kind other than 0
only for an AddressingFault. -/
def FaultLegal (f : FaultStatus) : Prop :=
  (f.active = false → f = FaultStatus.clear) ∧
  (f.active = true → 1 ≤ f.code.toNat ∧ f.code.toNat ≤ 6 ∧ f.kind.toNat ≤ 2 ∧
    (f.code ≠ 1 → f.kind = 0))

/-- The invariant of the machine: memory is in canonical form, the reserved bytes are intact, every
stack slot holds an address a CALL can push, `PC` is at most 0x1002 (R35), and `FAULT` is legal. -/
structure Inv (s : State) : Prop where
  memCanonical : s.mem.wf = true
  reservedIntact : ReservedIntact s
  stackBound : ∀ j : Fin 16, (s.stack[j.val]).toNat ≤ 0x1000
  pcBound : s.pc.toNat ≤ 0x1002
  faultLegal : FaultLegal s.fault

/-- `t` is `s` with the general registers reading as `f` says and nothing else changed. -/
def OnlyRegisters (s t : State) (f : Reg → Byte) : Prop :=
  (∀ r : Reg, readV t r = f r) ∧ t = { s with v := t.v }

/-- The general registers an instruction may write, the "writes" column of R33. -/
def registersWritten : Instr → Reg → Bool
  | .ldByte x _ | .addByte x _ | .ldReg x _ | .orReg x _ | .andReg x _ | .xorReg x _
  | .rnd x _ | .ldVxDt x | .ldVxK x => fun r => r = x
  | .addReg x _ | .subReg x _ | .subnReg x _ | .shr x _ | .shl x _ => fun r => r = x ∨ r = flagReg
  | .drw _ _ _ => fun r => r = flagReg
  | .ldLoad x => fun r => r ≤ x
  | .cls | .ret | .jpAddr _ | .callAddr _ | .seByte _ _ | .sneByte _ _ | .seReg _ _ | .sneReg _ _
  | .ldI _ | .jpV0 _ | .skp _ | .sknp _ | .ldDtVx _ | .ldStVx _ | .addI _ | .ldF _ | .ldB _
  | .ldStore _ => fun _ => false

/-- The sprite pixel of DRW Vx, Vy, n in the state `s` that falls on the cell of row `row`, column
`col`: the placement of R231, row `r` of the sprite from `M[I + r]`, bit 7 leftmost (R230), nothing
wrapped at the edges (R234). -/
def spriteOn (s : State) (x y : Reg) (n : Nibble) (row col : Nat) : Bool :=
  let y0 := (readV s y).toNat % 32
  let x0 := (readV s x).toNat % 64
  decide (y0 ≤ row ∧ row < y0 + n.toNat ∧ x0 ≤ col ∧ col < x0 + 8) &&
    (s.mem.peek (indexAddr s (row - y0))).getLsbD (7 - (col - x0))

/-- The byte at `c` once `bytes` have been stored over the memory of `s` from `a` up: a stored byte where
the run reaches, else the byte from before. -/
def overlaid (s : State) (a : Nat) (bytes : List Byte) (c : Nat) : Byte :=
  if a ≤ c then bytes[c - a]?.getD (s.mem.peek c) else s.mem.peek c

end Sys2Proof.Machine
end

