-- ==== Sys2Proof/Certificates/Slice0/Obligations.lean ====
section
/-!
DEFINITION. The statements about the model. A statement about what an instruction does is about `exec`,
the execute phase: there `PC` already holds `pc0 + 2` and `IW` the word (spec/40_dispatch.md R142,
R143). `StepRunsTheDecodedInstruction` carries it to a step.

A next state written `{ s with f := t.f }` says that every field but `f` is unchanged: that is the
statement's frame.
-/

open Sys2Proof Sys2Proof.Machine

/-! ### Encoding -/

/-- Decoding the word, or the bytes, of any instruction gives it back, with the bytes that follow; the
word is a legal one (R100, R101, R105, R106). The selector values are the spec's choice D23 (log 2). -/
def Obligations.DecodeOfEncodeIsTheInstruction : Prop :=
  ∀ (i : Instr) (rest : List Byte),
    decode (encode i) = .ok i ∧
    decodeBytes (encodeBytes i ++ rest) = .ok (i, rest) ∧
    legalWord (encode i) = true

/-- The case split of R106 and the match and mask table of R105 describe the same legal words, so the
illegal ones are exactly those no row covers (R111). -/
def Obligations.DecoderAcceptsExactlyTheOpcodeMap : Prop :=
  ∀ w : Word, (∃ i, decode w = .ok i) ↔ legalWord w = true

/-- No word is in two rows of the opcode map (R105). -/
def Obligations.OpcodeMapRowsAreDisjoint : Prop :=
  opcodeMap.Pairwise fun r q => ∀ w : Word, ¬ (r.covers w = true ∧ q.covers w = true)

/-- The bits the decoder ignores, at every value: the middle byte of class 0x0, the low nibble of
classes 0x5 and 0x9, the third nibble of class 0xE (R107, R108). -/
def Obligations.DecoderIgnoresTheUnusedBits : Prop :=
  ∀ (x y : Reg) (n z : Nibble) (m : Byte),
    decode (0x0#4 ++ m ++ 0x0#4) = .ok .cls ∧
    decode (0x0#4 ++ m ++ 0xE#4) = .ok .ret ∧
    decode (0x5#4 ++ regBits x ++ regBits y ++ n) = .ok (.seReg x y) ∧
    decode (0x9#4 ++ regBits x ++ regBits y ++ n) = .ok (.sneReg x y) ∧
    decode (0xE#4 ++ regBits x ++ z ++ 0xE#4) = .ok (.skp x) ∧
    decode (0xE#4 ++ regBits x ++ z ++ 0x1#4) = .ok (.sknp x)

/-- Words of each family, written out from the opcode map, decode to their instructions (R105). -/
def Obligations.DecoderReadsTheSampleWords : Prop :=
  decode 0x00E0 = .ok .cls ∧ decode 0x1ABC = .ok (.jpAddr 0xABC) ∧
  decode 0x3A7F = .ok (.seByte 10 0x7F) ∧ decode 0x8B46 = .ok (.shr 11 4) ∧
  decode 0xA123 = .ok (.ldI 0x123) ∧ decode 0xC9F0 = .ok (.rnd 9 0xF0) ∧
  decode 0xD12F = .ok (.drw 1 2 15) ∧ decode 0xE79E = .ok (.skp 7) ∧
  decode 0xF615 = .ok (.ldDtVx 6) ∧ decode 0xFC65 = .ok (.ldLoad 12)

/-! ### The step -/

/-- A step that is not halted runs the instruction its fetched word decodes to, on the state with the
word in `IW` and `PC` moved past it; a fault of the handler leaves the state before the step with that
`FAULT`; else the timers decay (R141 to R149), and the next free byte of the model's own `rnd` and
`rndSeq` is offered (log 1, DESIGN CHOICE). That a fault is a next state is log 3's DESIGN CHOICE. -/
def Obligations.StepRunsTheDecodedInstruction : Prop :=
  ∀ (s u : State) (w : Word) (i : Instr),
    s.fault.active = false → s.pc.toNat + 1 < 0x1000 →
    w = s.mem.peek s.pc.toNat ++ s.mem.peek (s.pc.toNat + 1) → decode w = .ok i →
    exec i { s with iw := w, pc := s.pc + 2 } = .next u →
    (u.fault.active = true → step s = .next { s with fault := u.fault }) ∧
    (u.fault.active = false → ∃ t, step s = .next t ∧
      t.dt.toNat = u.dt.toNat - 1 ∧ t.st.toNat = u.st.toNat - 1 ∧
      t.rndSeq = u.rndSeq + 1 ∧ t.rnd = Config.rndByte (u.rndSeq + 1) ∧
      t = { u with dt := t.dt, st := t.st, rnd := t.rnd, rndSeq := t.rndSeq })

/-- A step of a halted block changes nothing (R51; the spec's decision D29). -/
def Obligations.HaltedStepChangesNothing : Prop :=
  ∀ s : State, s.fault.active = true → step s = .next s

/-- A fetch at 0xFFF or above is an AddressingFault of kind fetch, whose word is 0 and whose address is
the fetch address (R80, R141, R300; the spec's decisions D4, D5). -/
def Obligations.FetchBeyondMemoryFaults : Prop :=
  ∀ s : State, s.fault.active = false → 0xFFE < s.pc.toNat →
    step s = .next { s with fault := ⟨true, 1, 0, s.pc, 0, s.pc⟩ }

/-- A fetched word that no row of the opcode map covers is a DecodeFault (R111, R144, R302). -/
def Obligations.IllegalWordFaults : Prop :=
  ∀ (s : State) (w : Word), s.fault.active = false → s.pc.toNat + 1 < 0x1000 →
    w = s.mem.peek s.pc.toNat ++ s.mem.peek (s.pc.toNat + 1) → legalWord w = false →
    step s = .next { s with fault := ⟨true, 2, 0, s.pc, w, 0⟩ }

/-- Fault entry is precise: a step that faults changes `FAULT` alone, and records the address of the
word, the word (0 if it was not fetched) and a legal code and kind (R148, R300, R310; the spec's
decision D4). -/
def Obligations.FaultingStepWritesOnlyFault : Prop :=
  ∀ s t : State, s.fault.active = false → step s = .next t → t.fault.active = true →
    t = { s with fault := t.fault } ∧ t.fault.pc = s.pc ∧ FaultLegal t.fault ∧
    t.fault.word = if s.pc.toNat + 1 < 0x1000
      then s.mem.peek s.pc.toNat ++ s.mem.peek (s.pc.toNat + 1) else 0

/-- The machine never stops in the host's sense: in every state every handler and every step answers a
next state, where it raises a fault too. That no fault is answered as the host's outcome `fault`, and
nothing as a refusal, is the model's choice and not a rule's words (log 3 and log 16, DESIGN CHOICE). It
says nothing of what the next state holds. -/
def Obligations.StepAlwaysAnswersANextState : Prop :=
  (∀ (i : Instr) (s : State), ∃ t, exec i s = .next t) ∧ ∀ s : State, ∃ t, step s = .next t

/-- After a completed step `IW` holds the word fetched, made big-endian of the bytes at `PC` and
`PC + 1` (R76, R142). -/
def Obligations.CompletedStepHoldsTheFetchedWord : Prop :=
  ∀ s t : State, s.fault.active = false → step s = .next t → t.fault.active = false →
    t.iw.toNat = (s.mem.peek s.pc.toNat).toNat * 256 + (s.mem.peek (s.pc.toNat + 1)).toNat

/-- Each timer goes down by one, stopping at zero, at the end of every step that does not fault,
whatever the handler left in it, be it a value the handler has just written (R147). -/
def Obligations.TimersDecayOncePerCompletedStep : Prop :=
  ∀ s t : State, s.fault.active = false → step s = .next t → t.fault.active = false →
    ∃ w i u, fetch16 s.pc.toNat s.mem = .ok w ∧ decode w = .ok i ∧
      exec i { s with iw := w, pc := s.pc + 2 } = .next u ∧
      t.dt.toNat = u.dt.toNat - 1 ∧ t.st.toNat = u.st.toNat - 1

/-- FX15 and FX18 as a whole step: the timer ends one below the register, or at 0 (R261, R262, R352). -/
def Obligations.SetTimerDecaysInTheSameStep : Prop :=
  ∀ (s : State) (w : Word) (x : Reg), s.fault.active = false → fetch16 s.pc.toNat s.mem = .ok w →
    (decode w = .ok (.ldDtVx x) → ∃ t, step s = .next t ∧
      t.dt.toNat = (readV s x).toNat - 1 ∧ t.st.toNat = s.st.toNat - 1 ∧ t.pc = s.pc + 2 ∧ t.iw = w ∧
      t = { s with dt := t.dt, st := t.st, pc := t.pc, iw := t.iw, rnd := t.rnd, rndSeq := t.rndSeq }) ∧
    (decode w = .ok (.ldStVx x) → ∃ t, step s = .next t ∧
      t.st.toNat = (readV s x).toNat - 1 ∧ t.dt.toNat = s.dt.toNat - 1 ∧ t.pc = s.pc + 2 ∧ t.iw = w ∧
      t = { s with dt := t.dt, st := t.st, pc := t.pc, iw := t.iw, rnd := t.rnd, rndSeq := t.rndSeq })

/-- Self-modifying code: after LD B or LD [I], Vx has stored its bytes, a step of any later state that
still holds that memory fetches the stored bytes, each byte of its word by itself being a stored one or
one from before, and leaves that word in `IW` if it completes (R91, R203, R204, R353; the spec's decision
D21). -/
def Obligations.StoredBytesAreFetched : Prop :=
  ∀ (x : Reg) (i : Instr) (bytes : List Byte) (s t r : State), s.mem.wf = true →
    (i = .ldB x ∧ bytes = [BitVec.ofNat 8 ((readV s x).toNat / 100),
      BitVec.ofNat 8 ((readV s x).toNat / 10 % 10), BitVec.ofNat 8 ((readV s x).toNat % 10)]) ∨
    (i = .ldStore x ∧ bytes.length = x.val + 1 ∧ ∀ k : Reg, k ≤ x → bytes[k.val]? = some (readV s k)) →
    exec i s = .next t → t.fault.active = false →
    r.mem = t.mem → r.fault.active = false → r.pc.toNat + 1 < 0x1000 →
    ∃ w : Word, w = overlaid s (indexAddr s 0) bytes r.pc.toNat ++
        overlaid s (indexAddr s 0) bytes (r.pc.toNat + 1) ∧
      fetch16 r.pc.toNat r.mem = .ok w ∧
      ∀ u, step r = .next u → u.fault.active = false → u.iw = w

/-! ### Control flow -/

/-- JP sets `PC` to the address and changes nothing else (R160). -/
def Obligations.JumpSetsPc : Prop :=
  ∀ (nnn : Addr12) (s : State), ∃ t, exec (.jpAddr nnn) s = .next t ∧
    t.pc.toNat = nnn.toNat ∧ t = { s with pc := t.pc }

/-- JP V0 masks the whole sum of `V[0]` and the address to 12 bits (R167; the spec's decision D8). -/
def Obligations.IndexedJumpMasksTheSum : Prop :=
  ∀ (nnn : Addr12) (s : State), ∃ t, exec (.jpV0 nnn) s = .next t ∧
    t.pc.toNat = ((readV s 0).toNat + nnn.toNat) % 4096 ∧ t = { s with pc := t.pc }

/-- CALL below depth 16 stores `PC` in slot `SP`, counts it, and jumps; the other slots are kept
(R37, R162). -/
def Obligations.CallPushesTheReturnAddress : Prop :=
  ∀ (nnn : Addr12) (s : State) (h : s.sp.val < 16), ∃ t, exec (.callAddr nnn) s = .next t ∧
    t.sp.val = s.sp.val + 1 ∧ t.stack[s.sp.val] = s.pc ∧
    (∀ j : Fin 16, j.val ≠ s.sp.val → t.stack[j.val] = s.stack[j.val]) ∧
    t.pc.toNat = nnn.toNat ∧ t = { s with stack := t.stack, sp := t.sp, pc := t.pc }

/-- RET above depth 0 uncounts the top slot and jumps to it; the slot keeps its value (R37, R38, R161;
the spec's decision D30). -/
def Obligations.ReturnPopsTheReturnAddress : Prop :=
  ∀ (s : State) (h : 0 < s.sp.val), ∃ t, exec .ret s = .next t ∧
    t.sp.val + 1 = s.sp.val ∧ t.pc = s.stack[s.sp.val - 1] ∧ t = { s with sp := t.sp, pc := t.pc }

/-- CALL at depth 16 is a StackOverflow and RET at depth 0 a StackUnderflow (R161, R162, R303; the
spec's decision D7). -/
def Obligations.StackEndsFault : Prop :=
  ∀ (nnn : Addr12) (s : State),
    (s.sp.val = 16 → exec (.callAddr nnn) s =
      .next { s with fault := ⟨true, 3, 0, s.pc - 2, s.iw, 0⟩ }) ∧
    (s.sp.val = 0 → exec .ret s = .next { s with fault := ⟨true, 4, 0, s.pc - 2, s.iw, 0⟩ })

/-- A RET that meets the stack a CALL left goes back to the address after the CALL and to its depth
(R161, R162). -/
def Obligations.ReturnUndoesCall : Prop :=
  ∀ (nnn : Addr12) (s t r : State), s.sp.val < 16 → exec (.callAddr nnn) s = .next t →
    r.sp = t.sp → r.stack = t.stack →
    ∃ u, exec .ret r = .next u ∧ u.pc = s.pc ∧ u.sp = s.sp ∧ u.stack = t.stack

/-- SE and SNE with a byte: `PC` goes on by 2, mod 2^16, iff the register equals, or differs from, the
byte (R163, R164). -/
def Obligations.ByteSkipsMovePc : Prop :=
  ∀ (x : Reg) (nn : Byte) (s : State),
    (∃ t, exec (.seByte x nn) s = .next t ∧ t = { s with pc := t.pc } ∧
      t.pc.toNat = (s.pc.toNat + if (readV s x).toNat = nn.toNat then 2 else 0) % 65536) ∧
    (∃ t, exec (.sneByte x nn) s = .next t ∧ t = { s with pc := t.pc } ∧
      t.pc.toNat = (s.pc.toNat + if (readV s x).toNat = nn.toNat then 0 else 2) % 65536)

/-- SE and SNE with two registers (R165, R166). -/
def Obligations.RegisterSkipsMovePc : Prop :=
  ∀ (x y : Reg) (s : State),
    (∃ t, exec (.seReg x y) s = .next t ∧ t = { s with pc := t.pc } ∧
      t.pc.toNat = (s.pc.toNat + if (readV s x).toNat = (readV s y).toNat then 2 else 0) % 65536) ∧
    (∃ t, exec (.sneReg x y) s = .next t ∧ t = { s with pc := t.pc } ∧
      t.pc.toNat = (s.pc.toNat + if (readV s x).toNat = (readV s y).toNat then 0 else 2) % 65536)

/-! ### Register load and ALU -/

/-- LD byte, ADD byte (mod 256, no flag) and LD register write the one register (R182, R183, R184). -/
def Obligations.LoadsAndImmediateAddWriteOneRegister : Prop :=
  ∀ (x y : Reg) (nn : Byte) (s : State),
    (∃ t, exec (.ldByte x nn) s = .next t ∧
      OnlyRegisters s t fun r => if r = x then nn else readV s r) ∧
    (∃ t, exec (.addByte x nn) s = .next t ∧ OnlyRegisters s t fun r =>
      if r = x then BitVec.ofNat 8 (((readV s x).toNat + nn.toNat) % 256) else readV s r) ∧
    (∃ t, exec (.ldReg x y) s = .next t ∧
      OnlyRegisters s t fun r => if r = x then readV s y else readV s r)

/-- OR, AND and XOR combine the registers bit by bit and leave VF alone unless it is the destination
(R185, R186, R187; the spec's decision D14). -/
def Obligations.BitwiseOpsWriteOneRegister : Prop :=
  ∀ (x y : Reg) (s : State),
    (∃ t b, exec (.orReg x y) s = .next t ∧
      (∀ k, b.getLsbD k = ((readV s x).getLsbD k || (readV s y).getLsbD k)) ∧
      OnlyRegisters s t fun r => if r = x then b else readV s r) ∧
    (∃ t b, exec (.andReg x y) s = .next t ∧
      (∀ k, b.getLsbD k = ((readV s x).getLsbD k && (readV s y).getLsbD k)) ∧
      OnlyRegisters s t fun r => if r = x then b else readV s r) ∧
    (∃ t b, exec (.xorReg x y) s = .next t ∧
      (∀ k, b.getLsbD k = ((readV s x).getLsbD k ^^ (readV s y).getLsbD k)) ∧
      OnlyRegisters s t fun r => if r = x then b else readV s r)

/-- ADD: the sum mod 256 and the carry in VF; with X = 0xF the result wins (R181, R188; the order is
the spec's decision D13). -/
def Obligations.AddWritesSumAndCarry : Prop :=
  ∀ (x y : Reg) (s : State), ∃ t, exec (.addReg x y) s = .next t ∧ OnlyRegisters s t fun r =>
    if r = x then BitVec.ofNat 8 (((readV s x).toNat + (readV s y).toNat) % 256)
    else if r = 15 then (if 255 < (readV s x).toNat + (readV s y).toNat then 1 else 0)
    else readV s r

/-- SUB and SUBN: the difference mod 256 and the not-borrow in VF; with X = 0xF the result wins (R181,
R189, R191; the order is the spec's decision D13). -/
def Obligations.SubtractionsWriteDifferenceAndNotBorrow : Prop :=
  ∀ (x y : Reg) (s : State),
    (∃ t, exec (.subReg x y) s = .next t ∧ OnlyRegisters s t fun r =>
      if r = x then BitVec.ofNat 8 ((256 + (readV s x).toNat - (readV s y).toNat) % 256)
      else if r = 15 then (if (readV s y).toNat ≤ (readV s x).toNat then 1 else 0)
      else readV s r) ∧
    (∃ t, exec (.subnReg x y) s = .next t ∧ OnlyRegisters s t fun r =>
      if r = x then BitVec.ofNat 8 ((256 + (readV s y).toNat - (readV s x).toNat) % 256)
      else if r = 15 then (if (readV s x).toNat ≤ (readV s y).toNat then 1 else 0)
      else readV s r)

/-- SHR and SHL: half, or twice mod 256, and the bit shifted out in VF, whatever the Y field; with
X = 0xF the result wins (R181, R190, R192; the spec's decisions D13, D15). -/
def Obligations.ShiftsWriteResultAndBitShiftedOut : Prop :=
  ∀ (x y : Reg) (s : State),
    (∃ t, exec (.shr x y) s = .next t ∧ OnlyRegisters s t fun r =>
      if r = x then BitVec.ofNat 8 ((readV s x).toNat / 2)
      else if r = 15 then BitVec.ofNat 8 ((readV s x).toNat % 2) else readV s r) ∧
    (∃ t, exec (.shl x y) s = .next t ∧ OnlyRegisters s t fun r =>
      if r = x then BitVec.ofNat 8 ((readV s x).toNat * 2 % 256)
      else if r = 15 then BitVec.ofNat 8 ((readV s x).toNat / 128) else readV s r)

/-! ### Memory and index -/

/-- LD I, ADD I (mod 2^16, no flag) and LD F write `I` and nothing else (R200, R201, R202; the width
is the spec's decision D17). -/
def Obligations.IndexInstructionsWriteI : Prop :=
  ∀ (nnn : Addr12) (x : Reg) (s : State),
    (∃ t, exec (.ldI nnn) s = .next t ∧ t.i.toNat = nnn.toNat ∧ t = { s with i := t.i }) ∧
    (∃ t, exec (.addI x) s = .next t ∧ t.i.toNat = (s.i.toNat + (readV s x).toNat) % 65536 ∧
      t = { s with i := t.i }) ∧
    (∃ t, exec (.ldF x) s = .next t ∧ t.i.toNat = 0x050 + 5 * ((readV s x).toNat % 16) ∧
      t = { s with i := t.i })

/-- LD B, where its three addresses may be written, stores the decimal digits of the register, hundreds
first, and changes no other byte (R203). -/
def Obligations.BcdStoresTheDigits : Prop :=
  ∀ (x : Reg) (s : State), s.mem.wf = true → 0x200 ≤ indexAddr s 0 → indexAddr s 2 ≤ 0xFFF →
    ∃ t, exec (.ldB x) s = .next t ∧
      (t.mem.peek (indexAddr s 0)).toNat * 100 + (t.mem.peek (indexAddr s 1)).toNat * 10 +
        (t.mem.peek (indexAddr s 2)).toNat = (readV s x).toNat ∧
      (t.mem.peek (indexAddr s 1)).toNat ≤ 9 ∧ (t.mem.peek (indexAddr s 2)).toNat ≤ 9 ∧
      (∀ a, a < indexAddr s 0 ∨ indexAddr s 2 < a → t.mem.peek a = s.mem.peek a) ∧
      t = { s with mem := t.mem }

/-- LD [I], Vx, where its addresses may be written, stores `V[0]..V[X]` at `I..I+X`, changes no other
byte, and leaves `I` (R204; that `I` is left is the spec's decision D16). -/
def Obligations.BlockStoreWritesTheRegisters : Prop :=
  ∀ (x : Reg) (s : State), s.mem.wf = true → 0x200 ≤ indexAddr s 0 → indexAddr s x.val ≤ 0xFFF →
    ∃ t, exec (.ldStore x) s = .next t ∧
      (∀ r : Reg, r ≤ x → t.mem.peek (indexAddr s r.val) = readV s r) ∧
      (∀ a, a < indexAddr s 0 ∨ indexAddr s x.val < a → t.mem.peek a = s.mem.peek a) ∧
      t = { s with mem := t.mem }

/-- LD Vx, [I], where its addresses exist, loads `V[0]..V[X]` from `I..I+X` and leaves the other
registers, memory and `I` (R205; that `I` is left is the spec's decision D16). -/
def Obligations.BlockLoadReadsTheRegisters : Prop :=
  ∀ (x : Reg) (s : State), indexAddr s x.val ≤ 0xFFF →
    ∃ t, exec (.ldLoad x) s = .next t ∧ OnlyRegisters s t fun r =>
      if r ≤ x then s.mem.peek (indexAddr s r.val) else readV s r

/-- Round trip: after a store of `V[0]..V[X]` that did not fault, a load of the same block through the
same `I`, whatever the registers hold by then, restores them (R204, R205). -/
def Obligations.StoreThenLoadRestoresTheRegisters : Prop :=
  ∀ (x : Reg) (s t r : State), s.mem.wf = true → exec (.ldStore x) s = .next t →
    t.fault.active = false → r.mem = t.mem → r.i = t.i →
    ∃ u, exec (.ldLoad x) r = .next u ∧ OnlyRegisters r u fun k =>
      if k ≤ x then readV s k else readV r k

/-- LD B and LD [I], Vx fault at the lowest offset whose address is above 0xFFF or below 0x200, with
that address, and write nothing (R80, R81, R203, R204, R306; the spec's decisions D4, D5, D6). -/
def Obligations.StoresFaultAtTheFirstBadAddress : Prop :=
  ∀ (x : Reg) (s : State) (k : Nat) (i : Instr),
    (i = .ldB x ∧ k ≤ 2) ∨ (i = .ldStore x ∧ k ≤ x.val) →
    (∀ j < k, 0x200 ≤ indexAddr s j ∧ indexAddr s j ≤ 0xFFF) →
    (0xFFF < indexAddr s k → exec i s = .next { s with
      fault := ⟨true, 1, 2, s.pc - 2, s.iw, BitVec.ofNat 16 (indexAddr s k)⟩ }) ∧
    (indexAddr s k < 0x200 → exec i s = .next { s with
      fault := ⟨true, 5, 0, s.pc - 2, s.iw, BitVec.ofNat 16 (indexAddr s k)⟩ })

/-- LD Vx, [I] and DRW fault at the lowest offset whose address is above 0xFFF, with that address; no
register, VF or cell is written (R80, R205, R232, R306; the spec's decisions D4, D5). -/
def Obligations.LoadsFaultAtTheFirstBadAddress : Prop :=
  ∀ (x y : Reg) (n : Nibble) (s : State) (k : Nat) (i : Instr),
    (i = .ldLoad x ∧ k ≤ x.val) ∨ (i = .drw x y n ∧ k < n.toNat) →
    (∀ j < k, indexAddr s j ≤ 0xFFF) → 0xFFF < indexAddr s k →
    exec i s = .next { s with
      fault := ⟨true, 1, 1, s.pc - 2, s.iw, BitVec.ofNat 16 (indexAddr s k)⟩ }

/-- No step changes a byte below 0x200, the font set among them (R72, R81; the spec's decision D6). -/
def Obligations.ReservedMemoryIsNeverWritten : Prop :=
  ∀ (s t : State) (a : Nat), step s = .next t → a < 0x200 → t.mem.peek a = s.mem.peek a

/-- Two memories in canonical form that read alike at every address are the same list: equal memories
are equal data. This is about the model's own representation of `M`. -/
def Obligations.CanonicalMemoriesThatReadAlikeAreEqual : Prop :=
  ∀ m m' : Memory, m.wf = true → m'.wf = true → (∀ a, m.peek a = m'.peek a) → m = m'

/-! ### Which instructions touch which state -/

/-- Each piece of state is changed by the instructions its rule names and by no other, in every state:
`PC`, `I`, `SP` and the stack, the timers, the framebuffer, memory; `IW`, `KEY` and the random offer by
none (R35, R36, R38, R39, R40, R41, R42, R75). -/
def Obligations.EachPieceOfStateHasItsWriters : Prop :=
  ∀ (i : Instr) (s t : State), exec i s = .next t →
    (t.pc ≠ s.pc → (∃ n, i = .jpAddr n ∨ i = .callAddr n ∨ i = .jpV0 n) ∨ i = .ret ∨
      (∃ x, i = .skp x ∨ i = .sknp x ∨ i = .ldVxK x) ∨
      (∃ x b, i = .seByte x b ∨ i = .sneByte x b) ∨ ∃ x y, i = .seReg x y ∨ i = .sneReg x y) ∧
    (t.i ≠ s.i → (∃ n, i = .ldI n) ∨ ∃ x, i = .addI x ∨ i = .ldF x) ∧
    (t.sp ≠ s.sp → (∃ n, i = .callAddr n) ∨ i = .ret) ∧
    (t.stack ≠ s.stack → ∃ n, i = .callAddr n) ∧
    (t.dt ≠ s.dt → ∃ x, i = .ldDtVx x) ∧
    (t.st ≠ s.st → ∃ x, i = .ldStVx x) ∧
    (t.fb ≠ s.fb → i = .cls ∨ ∃ x y n, i = .drw x y n) ∧
    (t.mem ≠ s.mem → ∃ x, i = .ldB x ∨ i = .ldStore x) ∧
    t.iw = s.iw ∧ t.key = s.key ∧ t.rnd = s.rnd ∧ t.rndSeq = s.rndSeq

/-- A general register changes only where the access table allows the instruction to write it (R31,
R33). -/
def Obligations.RegistersChangeOnlyWhereTheTableAllows : Prop :=
  ∀ (i : Instr) (s t : State) (r : Reg), exec i s = .next t → readV t r ≠ readV s r →
    registersWritten i r = true

/-- A handler raises only the faults its rule names: the "raised by" column of R300, with `FAULT`
otherwise left and every fault entry leaving the rest of the state (R300, R310). -/
def Obligations.OnlyTheNamedInstructionsRaiseEachFault : Prop :=
  ∀ (i : Instr) (s t : State), exec i s = .next t → t.fault ≠ s.fault →
    t = { s with fault := t.fault } ∧ t.fault.active = true ∧
    ((t.fault.code = 1 ∧ t.fault.kind = 1 ∧ ((∃ x y n, i = .drw x y n) ∨ ∃ x, i = .ldLoad x)) ∨
     (t.fault.code = 1 ∧ t.fault.kind = 2 ∧ ∃ x, i = .ldB x ∨ i = .ldStore x) ∨
     (t.fault.code = 3 ∧ t.fault.kind = 0 ∧ ∃ n, i = .callAddr n) ∨
     (t.fault.code = 4 ∧ t.fault.kind = 0 ∧ i = .ret) ∨
     (t.fault.code = 5 ∧ t.fault.kind = 0 ∧ ∃ x, i = .ldB x ∨ i = .ldStore x) ∨
     (t.fault.code = 6 ∧ t.fault.kind = 0 ∧ ∃ x, i = .skp x ∨ i = .sknp x))

/-- The keys are set by the host and never written by the block; SKP, SKNP and LD Vx, K read them, and
any other instruction does the same whatever they are (R41). -/
def Obligations.KeypadIsReadByThreeInstructions : Prop :=
  (∀ (s : State) (keys : Vector Bool 16), hostKeys keys s = { s with key := keys }) ∧
  (∀ s t : State, step s = .next t → t.key = s.key) ∧
  (∀ (i : Instr) (x : Reg), i = .skp x ∨ i = .sknp x ∨ i = .ldVxK x →
    ∃ (s t u : State) (keys : Vector Bool 16), exec i s = .next t ∧
      exec i { s with key := keys } = .next u ∧ t.pc ≠ u.pc) ∧
  ∀ (i : Instr) (s t : State) (keys : Vector Bool 16), exec i s = .next t →
    (∀ x, i ≠ .skp x ∧ i ≠ .sknp x ∧ i ≠ .ldVxK x) →
    exec i { s with key := keys } = .next { t with key := keys }

/-- The framebuffer is written only by CLS and DRW, and read only by DRW, for its collision flag, and by
the host: an instruction other than DRW does the same whatever it shows (R40). -/
def Obligations.FramebufferIsReadOnlyByDraw : Prop :=
  (∀ (i : Instr) (s t : State), exec i s = .next t → t.fb ≠ s.fb → i = .cls ∨ ∃ x y n, i = .drw x y n) ∧
  (∀ (i : Instr) (s t : State) (screen : Framebuffer), exec i s = .next t →
    (∀ x y n, i ≠ .drw x y n) →
    exec i { s with fb := screen } = .next { t with fb := if i = .cls then t.fb else screen }) ∧
  (∀ x y : Reg, ∃ (s t u : State) (screen : Framebuffer), exec (.drw x y 1) s = .next t ∧
    exec (.drw x y 1) { s with fb := screen } = .next u ∧ readV t 15 ≠ readV u 15) ∧
  ∀ s : State, (outputs s).fb = s.fb

/-- The random input is read only by RND (R60, R220; the spec's decision D19). -/
def Obligations.RandomInputIsReadOnlyByRnd : Prop :=
  ∀ (i : Instr) (s t : State) (b : Byte), exec i s = .next t → (∀ x m, i ≠ .rnd x m) →
    exec i { s with rnd := b } = .next { t with rnd := b }

/-! ### Random, drawing, display -/

/-- RND writes the offered byte under the mask, bit by bit, for every byte the host may offer (R220,
R221; the spec's decision D19). -/
def Obligations.RandomByteUnderMask : Prop :=
  ∀ (x : Reg) (nn : Byte) (s : State), ∃ t b, exec (.rnd x nn) s = .next t ∧
    (∀ k, b.getLsbD k = (s.rnd.getLsbD k && nn.getLsbD k)) ∧
    OnlyRegisters s t fun r => if r = x then b else readV s r

/-- DRW, where its sprite bytes exist, XORs every cell with the sprite pixel that falls on it, sets VF
to 1 iff an on pixel fell on an on cell, and changes nothing else; with no rows it needs no memory and
clears VF (R230 to R236; pixel order, edges and latching are the spec's decisions D11, D10, D12). -/
def Obligations.DrawXorsTheSpriteAndReportsCollision : Prop :=
  ∀ (x y : Reg) (n : Nibble) (s : State), (n = 0 ∨ indexAddr s n.toNat ≤ 0x1000) →
    ∃ t, exec (.drw x y n) s = .next t ∧
      (∀ (row : Fin 32) (col : Fin 64),
        t.fb[row.val][col.val] = (s.fb[row.val][col.val] ^^ spriteOn s x y n row col)) ∧
      (readV t 15 = 1 ↔ ∃ (row : Fin 32) (col : Fin 64),
        s.fb[row.val][col.val] = true ∧ spriteOn s x y n row col = true) ∧
      (readV t 15 = 0 ∨ readV t 15 = 1) ∧
      (∀ r : Reg, r ≠ 15 → readV t r = readV s r) ∧ t = { s with fb := t.fb, v := t.v }

/-- Drawing the same sprite again at the same place restores the framebuffer, and sets VF iff an on
pixel of the sprite fell, inside the screen, on a cell that was off before the first draw: those are
the cells the first draw left on (R232, R233). Where the first draw met no on cell this is the corner
case R232 names; where it erased cells, R232's pseudocode decides (log 6). -/
def Obligations.DrawingTwiceRestoresTheScreen : Prop :=
  ∀ (x y : Reg) (n : Nibble) (s t r u : State), (n = 0 ∨ indexAddr s n.toNat ≤ 0x1000) →
    exec (.drw x y n) s = .next t →
    r.fb = t.fb → r.mem = s.mem → r.i = s.i → readV r x = readV s x → readV r y = readV s y →
    exec (.drw x y n) r = .next u →
    u.fb = s.fb ∧ (readV u 15 = 1 ↔ ∃ (row : Fin 32) (col : Fin 64),
      s.fb[row.val][col.val] = false ∧ spriteOn s x y n row col = true)

/-- CLS turns every cell off and changes nothing else (R270). -/
def Obligations.ClearTurnsEveryCellOff : Prop :=
  ∀ s : State, ∃ t, exec .cls s = .next t ∧
    (∀ (row : Fin 32) (col : Fin 64), t.fb[row.val][col.val] = false) ∧ t = { s with fb := t.fb }

/-! ### Input -/

/-- SKP and SKNP, where the register names a key, move `PC` on by 2, mod 2^16, iff the key is pressed,
or is not (R250, R251). -/
def Obligations.KeySkipsMovePc : Prop :=
  ∀ (x : Reg) (s : State) (h : (readV s x).toNat < 16),
    (∃ t, exec (.skp x) s = .next t ∧ t = { s with pc := t.pc } ∧
      t.pc.toNat = (s.pc.toNat + if s.key[(readV s x).toNat] then 2 else 0) % 65536) ∧
    (∃ t, exec (.sknp x) s = .next t ∧ t = { s with pc := t.pc } ∧
      t.pc.toNat = (s.pc.toNat + if s.key[(readV s x).toNat] then 0 else 2) % 65536)

/-- SKP and SKNP with a register above 15 are a KeyRangeFault that records the value (R250, R251, R300;
the spec's decision D18). -/
def Obligations.KeyOutOfRangeFaults : Prop :=
  ∀ (x : Reg) (s : State) (i : Instr), (i = .skp x ∨ i = .sknp x) → 15 < (readV s x).toNat →
    exec i s = .next { s with
      fault := ⟨true, 6, 0, s.pc - 2, s.iw, BitVec.ofNat 16 (readV s x).toNat⟩ }

/-- LD Vx, K: with no key pressed `PC` goes back by 2 and nothing else changes; else the lowest pressed
key of all sixteen goes to the register (R252; the spec's decision D9). -/
def Obligations.KeyWaitStoresTheLowestKey : Prop :=
  ∀ (x : Reg) (s : State),
    ((∀ k : Key, s.key[k.val] = false) → ∃ t, exec (.ldVxK x) s = .next t ∧
      t.pc + 2 = s.pc ∧ t = { s with pc := t.pc }) ∧
    (∀ k : Key, s.key[k.val] = true → (∀ j : Key, j < k → s.key[j.val] = false) →
      ∃ t, exec (.ldVxK x) s = .next t ∧
        OnlyRegisters s t fun r => if r = x then BitVec.ofNat 8 k.val else readV s r)

/-- A waiting step is a whole step that leaves `PC` where it was: only the timers (and `IW`, and the
model's random offer) move (R147, R252, R354). -/
def Obligations.WaitingStepStaysAndDecays : Prop :=
  ∀ (s : State) (w : Word) (x : Reg), s.fault.active = false → fetch16 s.pc.toNat s.mem = .ok w →
    decode w = .ok (.ldVxK x) → (∀ k : Key, s.key[k.val] = false) →
    ∃ t, step s = .next t ∧ t.dt.toNat = s.dt.toNat - 1 ∧ t.st.toNat = s.st.toNat - 1 ∧ t.iw = w ∧
      t = { s with dt := t.dt, st := t.st, iw := t.iw, rnd := t.rnd, rndSeq := t.rndSeq }

/-! ### Timers -/

/-- LD Vx, DT copies the delay timer, LD DT, Vx and LD ST, Vx set a timer, and each changes nothing
else (R260, R261, R262). -/
def Obligations.TimerInstructionsMoveTheTimers : Prop :=
  ∀ (x : Reg) (s : State),
    (∃ t, exec (.ldVxDt x) s = .next t ∧
      OnlyRegisters s t fun r => if r = x then s.dt else readV s r) ∧
    (∃ t, exec (.ldDtVx x) s = .next t ∧ t.dt = readV s x ∧ t = { s with dt := t.dt }) ∧
    (∃ t, exec (.ldStVx x) s = .next t ∧ t.st = readV s x ∧ t = { s with st := t.st })

/-! ### Reset, the host, and the invariant -/

/-- What reset leaves, piece by piece, in the state a block starts in and after the host's `reset` of any
state, a faulted one too (R55, R84, R340, R341). `I`, the timers, the framebuffer, the keys and `IW` are
the spec's decision D20, the 80 font bytes its D26 (log 4), `FAULT` its D4; the random offer is no state
of the block and not named (log 12). -/
def Obligations.ResetLeavesTheStatedValues : Prop :=
  ∀ s t : State, t = State.reset ∨ t = hostReset s →
    (∀ r : Reg, readV t r = 0) ∧ t.i = 0 ∧ t.pc = 0x200 ∧ t.sp.val = 0 ∧
    (∀ j : Fin 16, t.stack[j.val] = 0) ∧
    (∀ a, a < 0x050 ∨ 0x09F < a → t.mem.peek a = 0) ∧
    (List.range 40).map (fun k => t.mem.peek (0x050 + k)) =
      [0xF0, 0x90, 0x90, 0x90, 0xF0] ++ [0x20, 0x60, 0x20, 0x20, 0x70] ++
      [0xF0, 0x10, 0xF0, 0x80, 0xF0] ++ [0xF0, 0x10, 0xF0, 0x10, 0xF0] ++
      [0x90, 0x90, 0xF0, 0x10, 0x10] ++ [0xF0, 0x80, 0xF0, 0x10, 0xF0] ++
      [0xF0, 0x80, 0xF0, 0x90, 0xF0] ++ [0xF0, 0x10, 0x20, 0x40, 0x40] ∧
    (List.range 40).map (fun k => t.mem.peek (0x078 + k)) =
      [0xF0, 0x90, 0xF0, 0x90, 0xF0] ++ [0xF0, 0x90, 0xF0, 0x10, 0xF0] ++
      [0xF0, 0x90, 0xF0, 0x90, 0x90] ++ [0xE0, 0x90, 0xE0, 0x90, 0xE0] ++
      [0xF0, 0x80, 0x80, 0x80, 0xF0] ++ [0xE0, 0x90, 0x90, 0x90, 0xE0] ++
      [0xF0, 0x80, 0xF0, 0x80, 0xF0] ++ [0xF0, 0x80, 0xF0, 0x80, 0x80] ∧
    t.dt = 0 ∧ t.st = 0 ∧
    (∀ (row : Fin 32) (col : Fin 64), t.fb[row.val][col.val] = false) ∧
    (∀ k : Key, t.key[k.val] = false) ∧ t.iw = 0 ∧ t.fault = ⟨false, 0, 0, 0, 0, 0⟩

/-- The invariant holds after reset. -/
def Obligations.ResetSatisfiesTheInvariant : Prop := Inv State.reset

/-- Every step keeps the invariant, from every state that has it: canonical memory, the reserved bytes
at their reset contents, stack slots up to 0x1000, `PC` up to 0x1002, a legal `FAULT` (R35, R37, R50,
R72, R81). -/
def Obligations.StepKeepsTheInvariant : Prop :=
  ∀ s t : State, Inv s → step s = .next t → Inv t

/-- Every state that a host which keeps its duties can bring the block to, whatever program it loads,
whatever keys and random bytes it offers, has the invariant (R345, R346, R348; the spec's decision
D28; that `Session` keeps the order of the transactions is log 13's DESIGN CHOICE). -/
def Obligations.EverySessionKeepsTheInvariant : Prop :=
  ∀ (p : Phase) (s : State), Session p s → Inv s

/-- A parked block stays parked, and a step of it moves only the timers (and `IW`, and the model's
random offer) (R160, R355; the spec's decision D34). -/
def Obligations.ParkedStepMovesOnlyTheTimers : Prop :=
  ∀ s : State, Parked s → ∃ t, step s = .next t ∧ Parked t ∧
    t.dt.toNat = s.dt.toNat - 1 ∧ t.st.toNat = s.st.toNat - 1 ∧
    t = { s with dt := t.dt, st := t.st, iw := t.iw, rnd := t.rnd, rndSeq := t.rndSeq }

/-- The host's load copies an image of at most 3584 bytes to 0x200 up, leaving every other byte and the
rest of the state; a longer image is refused (R346; the spec's decision D28). -/
def Obligations.LoadCopiesTheImage : Prop :=
  ∀ (image : List Byte) (s : State), s.mem.wf = true →
    (image.length ≤ 3584 → ∃ t, hostLoad image s = some t ∧
      (∀ (k : Nat) (h : k < image.length), t.mem.peek (0x200 + k) = image[k]) ∧
      (∀ a, a < 0x200 ∨ 0x200 + image.length ≤ a → t.mem.peek a = s.mem.peek a) ∧
      t = { s with mem := t.mem }) ∧
    (3584 < image.length → hostLoad image s = none)

/-- Reset is the only transaction that clears a fault: a step, a load, keys and a random offer leave a
latched `FAULT` as it is (R51, R341; the spec's decision D29). -/
def Obligations.OnlyResetClearsAFault : Prop :=
  ∀ s : State, s.fault.active = true →
    (∀ t, step s = .next t → t.fault = s.fault) ∧
    (∀ image t, hostLoad image s = some t → t.fault = s.fault) ∧
    (∀ keys, (hostKeys keys s).fault = s.fault) ∧ (∀ b, (hostRnd b s).fault = s.fault) ∧
    (hostReset s).fault.active = false
end

