-- ==== Sys2Proof/Laws/Drawing.lean ====
section
/-!
SUPPORT. What the sprite engine does (spec/45_drawing.md R230 to R234), as one equation for a cell and
one for the collision bit at each level: a pixel, a run of pixels, the rows. A cell is compared with
each sprite pixel at most once, so the comparator sees the framebuffer as it was.
-/

namespace Sys2Proof.Machine

/-- The pixel of a run of `n` pixels from offset `k` of the byte `row` that falls on column `x`. -/
def runPixel (x0 : Nat) (row : Byte) (k n x : Nat) : Bool :=
  decide (x0 + k ≤ x ∧ x < x0 + k + n) && row.getLsbD (7 - (x - x0))

/-- The pixel of the sprite `rows` placed at row `y0`, column `x0` that falls on row `y`, column `x`. -/
def rowsPixel (y0 x0 : Nat) (rows : List Byte) (y x : Nat) : Bool :=
  decide (y0 ≤ y) && runPixel x0 (rows[y - y0]?.getD 0) 0 8 x

theorem drawPixel_cell (y x : Nat) (on : Bool) (c : Canvas) (y' x' : Nat) (hy : y' < 32) (hx : x' < 64) :
    (drawPixel y x on c).1[y'][x'] = (c.1[y'][x'] ^^ (on && decide (y = y' ∧ x = x'))) := by
  unfold drawPixel
  by_cases hs : y < 32 ∧ x < 64
  · rw [dif_pos hs]
    cases on with
    | false => simp
    | true =>
      by_cases h1 : y = y'
      · subst h1
        by_cases h2 : x = x'
        · subst h2; simp
        · simp [h2]
      · simp [h1]
  · rw [dif_neg hs]
    have : ¬ (y = y' ∧ x = x') := by omega
    simp [this]

theorem drawPixel_hit (y x : Nat) (on : Bool) (c : Canvas) :
    (drawPixel y x on c).2 = true ↔
      c.2 = true ∨ (on = true ∧ ∃ (hy : y < 32) (hx : x < 64), c.1[y][x] = true) := by
  unfold drawPixel
  by_cases hs : y < 32 ∧ x < 64
  · rw [dif_pos hs]
    cases on <;> simp [hs.1, hs.2]
  · rw [dif_neg hs]
    constructor
    · exact .inl
    · rintro (h | ⟨-, hy, hx, -⟩)
      · exact h
      · exact absurd ⟨hy, hx⟩ hs

theorem drawPixels_cell (y x0 : Nat) (row : Byte) (k n : Nat) (c : Canvas) (y' x' : Nat) (hy : y' < 32)
    (hx : x' < 64) :
    (drawPixels y x0 row k n c).1[y'][x'] =
      (c.1[y'][x'] ^^ (decide (y = y') && runPixel x0 row k n x')) := by
  induction n generalizing k c with
  | zero =>
    have : ¬ (x0 + k ≤ x' ∧ x' < x0 + k) := by omega
    simp [drawPixels, runPixel, this]
  | succ n ih =>
    rw [drawPixels, ih, drawPixel_cell _ _ _ _ _ _ hy hx]
    by_cases h : x0 + k = x'
    · subst h
      have h1 : ¬ (x0 + (k + 1) ≤ x0 + k) := by omega
      simp [runPixel, h1, Bool.and_comm]
    · have h1 : (x0 + (k + 1) ≤ x' ∧ x' < x0 + (k + 1) + n) ↔
          (x0 + k ≤ x' ∧ x' < x0 + k + (n + 1)) := by omega
      simp [runPixel, h, h1]

theorem drawPixels_hit (y x0 : Nat) (row : Byte) (k n : Nat) (c : Canvas) :
    (drawPixels y x0 row k n c).2 = true ↔
      c.2 = true ∨ ∃ (hy : y < 32) (x : Nat) (hx : x < 64),
        runPixel x0 row k n x = true ∧ c.1[y][x] = true := by
  induction n generalizing k c with
  | zero =>
    have : ∀ x, runPixel x0 row k 0 x = false := fun x => by
      have : ¬ (x0 + k ≤ x ∧ x < x0 + k) := by omega
      simp [runPixel, this]
    simp [drawPixels, this]
  | succ n ih =>
    rw [drawPixels, ih, drawPixel_hit]
    constructor
    · rintro ((h | ⟨hon, hy, hx, hc⟩) | ⟨hy, x, hx, hr, hc⟩)
      · exact .inl h
      · exact .inr ⟨hy, x0 + k, hx, by simp [runPixel, hon], hc⟩
      · simp only [runPixel, Bool.and_eq_true, decide_eq_true_eq] at hr
        rw [drawPixel_cell _ _ _ _ _ _ hy hx] at hc
        have hne : ¬ (x0 + k = x) := by omega
        refine .inr ⟨hy, x, hx, ?_, by simpa [hne] using hc⟩
        simp only [runPixel, Bool.and_eq_true, decide_eq_true_eq]
        exact ⟨by omega, hr.2⟩
    · rintro (h | ⟨hy, x, hx, hr, hc⟩)
      · exact .inl (.inl h)
      · simp only [runPixel, Bool.and_eq_true, decide_eq_true_eq] at hr
        by_cases h : x0 + k = x
        · subst h
          exact .inl (.inr ⟨by simpa using hr.2, hy, hx, hc⟩)
        · refine .inr ⟨hy, x, hx, ?_, ?_⟩
          · simp only [runPixel, Bool.and_eq_true, decide_eq_true_eq]
            exact ⟨by omega, hr.2⟩
          · rw [drawPixel_cell _ _ _ _ _ _ hy hx]
            simpa [h] using hc

/-- After the rows are drawn a cell is what it was, XORed with the sprite pixel that falls on it. -/
theorem drawRows_cell (y0 x0 : Nat) (rows : List Byte) (c : Canvas) (y x : Nat) (hy : y < 32)
    (hx : x < 64) :
    (drawRows y0 x0 rows c).1[y][x] = (c.1[y][x] ^^ rowsPixel y0 x0 rows y x) := by
  induction rows generalizing y0 c with
  | nil => simp [drawRows, rowsPixel, runPixel]
  | cons row rest ih =>
    rw [drawRows, ih, drawRow, drawPixels_cell _ _ _ _ _ _ _ _ hy hx]
    rcases Nat.lt_trichotomy y y0 with h | h | h
    · have h1 : ¬ y0 ≤ y := by omega
      have h2 : ¬ y0 + 1 ≤ y := by omega
      have h3 : ¬ y0 = y := by omega
      simp [rowsPixel, h1, h2, h3]
    · subst h
      have h2 : ¬ y + 1 ≤ y := by omega
      simp [rowsPixel]
    · have h1 : y0 ≤ y := by omega
      have h2 : y0 + 1 ≤ y := by omega
      have h3 : ¬ y0 = y := by omega
      have h4 : y - y0 = (y - (y0 + 1)) + 1 := by omega
      simp [rowsPixel, h1, h2, h3, h4]

/-- The collision bit after the rows: some sprite pixel inside the screen fell on a cell that was on
(R233). -/
theorem drawRows_hit (y0 x0 : Nat) (rows : List Byte) (c : Canvas) :
    (drawRows y0 x0 rows c).2 = true ↔
      c.2 = true ∨ ∃ (y x : Nat) (hy : y < 32) (hx : x < 64),
        rowsPixel y0 x0 rows y x = true ∧ c.1[y][x] = true := by
  induction rows generalizing y0 c with
  | nil => simp [drawRows, rowsPixel, runPixel]
  | cons row rest ih =>
    have hcell : ∀ (y x : Nat) (hy : y < 32) (hx : x < 64), y0 + 1 ≤ y →
        (drawRow y0 x0 row c).1[y][x] = c.1[y][x] := by
      intro y x hy hx h
      rw [drawRow, drawPixels_cell _ _ _ _ _ _ _ _ hy hx]
      simp [show ¬ y0 = y by omega]
    rw [drawRows, ih, drawRow, drawPixels_hit, ← drawRow]
    constructor
    · rintro ((h | ⟨hy, x, hx, hr, hc⟩) | ⟨y, x, hy, hx, hr, hc⟩)
      · exact .inl h
      · exact .inr ⟨y0, x, hy, hx, by simpa [rowsPixel] using hr, hc⟩
      · simp only [rowsPixel, Bool.and_eq_true, decide_eq_true_eq] at hr
        rw [hcell y x hy hx hr.1] at hc
        refine .inr ⟨y, x, hy, hx, ?_, hc⟩
        rw [rowsPixel, show y - y0 = (y - (y0 + 1)) + 1 by omega, List.getElem?_cons_succ]
        simp only [Bool.and_eq_true, decide_eq_true_eq]
        exact ⟨by omega, hr.2⟩
    · rintro (h | ⟨y, x, hy, hx, hr, hc⟩)
      · exact .inl (.inl h)
      · simp only [rowsPixel, Bool.and_eq_true, decide_eq_true_eq] at hr
        by_cases h : y0 = y
        · subst h
          exact .inl (.inr ⟨hy, x, hx, by simpa using hr.2, hc⟩)
        · have hle : y0 + 1 ≤ y := by omega
          refine .inr ⟨y, x, hy, hx, ?_, by rw [hcell y x hy hx hle]; exact hc⟩
          have h2 := hr.2
          rw [show y - y0 = (y - (y0 + 1)) + 1 by omega, List.getElem?_cons_succ] at h2
          simp only [rowsPixel, Bool.and_eq_true, decide_eq_true_eq]
          exact ⟨hle, h2⟩

end Sys2Proof.Machine
end

