-- ==== Sys2Proof/Laws/Encoding.lean ====
section
/-!
SUPPORT. The fields of a word written as a concatenation of fields (spec/30_encoding.md R101, R102), in
the shapes the formats have: four nibbles, two nibbles and a byte, a nibble and an address, a nibble and
a middle byte and a nibble.
-/

namespace Sys2Proof

/-- A concatenation as a number. -/
theorem toNat_append_eq {m n : Nat} (a : BitVec m) (b : BitVec n) :
    (a ++ b).toNat = a.toNat * 2 ^ n + b.toNat := by
  rw [BitVec.toNat_append, ← Nat.shiftLeft_add_eq_or_of_lt b.isLt, Nat.shiftLeft_eq]

@[simp] theorem regBits_toNat (x : Reg) : (regBits x).toNat = x.val := rfl

@[simp] theorem regBits_toFin (x : Reg) : (regBits x).toFin = x := rfl

/-- A register field as a number. -/
theorem fieldX_val (w : Word) : (fieldX w).val = w.toNat / 256 % 16 := by
  simp [fieldX, Nat.shiftRight_eq_div_pow]

theorem fieldY_val (w : Word) : (fieldY w).val = w.toNat / 16 % 16 := by
  simp [fieldY, Nat.shiftRight_eq_div_pow]

theorem classOf_toNat (w : Word) : (classOf w).toNat = w.toNat / 4096 % 16 := by
  simp [classOf, BitVec.extractLsb'_toNat, Nat.shiftRight_eq_div_pow]

theorem lowNibble_toNat (w : Word) : (lowNibble w).toNat = w.toNat % 16 := by
  simp [lowNibble, BitVec.extractLsb'_toNat]

theorem lowByte_toNat (w : Word) : (lowByte w).toNat = w.toNat % 256 := by
  simp [lowByte, BitVec.extractLsb'_toNat]

theorem fieldNNN_toNat (w : Word) : (fieldNNN w).toNat = w.toNat % 4096 := by
  simp [fieldNNN, BitVec.extractLsb'_toNat]

section
variable (a b c d : Nibble) (x y : Reg) (nn : Byte) (nnn : Addr12)

/-! ### Four nibbles -/

@[simp] theorem classOf_nibbles : classOf (a ++ b ++ c ++ d) = a := by
  apply BitVec.eq_of_toNat_eq
  simp only [classOf_toNat, toNat_append_eq]
  omega

@[simp] theorem fieldX_nibbles : fieldX (a ++ b ++ c ++ d) = b.toFin := by
  apply Fin.ext
  simp only [fieldX_val, toNat_append_eq, BitVec.val_toFin]
  omega

@[simp] theorem fieldY_nibbles : fieldY (a ++ b ++ c ++ d) = c.toFin := by
  apply Fin.ext
  simp only [fieldY_val, toNat_append_eq, BitVec.val_toFin]
  omega

@[simp] theorem lowNibble_nibbles : lowNibble (a ++ b ++ c ++ d) = d := by
  apply BitVec.eq_of_toNat_eq
  simp only [lowNibble_toNat, toNat_append_eq]
  omega

/-! ### Two nibbles and a byte -/

@[simp] theorem classOf_byte : classOf (a ++ b ++ nn) = a := by
  apply BitVec.eq_of_toNat_eq
  simp only [classOf_toNat, toNat_append_eq]
  omega

@[simp] theorem fieldX_byte : fieldX (a ++ b ++ nn) = b.toFin := by
  apply Fin.ext
  simp only [fieldX_val, toNat_append_eq, BitVec.val_toFin]
  omega

@[simp] theorem lowByte_byte : lowByte (a ++ b ++ nn) = nn := by
  apply BitVec.eq_of_toNat_eq
  simp only [lowByte_toNat, toNat_append_eq]
  omega

@[simp] theorem lowNibble_byte : lowNibble (a ++ b ++ nn) = nn.extractLsb' 0 4 := by
  apply BitVec.eq_of_toNat_eq
  simp only [lowNibble_toNat, toNat_append_eq, BitVec.extractLsb'_toNat, Nat.shiftRight_zero]
  omega

/-! ### A nibble and an address -/

@[simp] theorem classOf_addr : classOf (a ++ nnn) = a := by
  apply BitVec.eq_of_toNat_eq
  simp only [classOf_toNat, toNat_append_eq]
  omega

@[simp] theorem fieldNNN_addr : fieldNNN (a ++ nnn) = nnn := by
  apply BitVec.eq_of_toNat_eq
  simp only [fieldNNN_toNat, toNat_append_eq]
  omega

/-! ### A nibble, a middle byte and a nibble -/

@[simp] theorem classOf_middle : classOf (a ++ nn ++ d) = a := by
  apply BitVec.eq_of_toNat_eq
  simp only [classOf_toNat, toNat_append_eq]
  omega

@[simp] theorem lowNibble_middle : lowNibble (a ++ nn ++ d) = d := by
  apply BitVec.eq_of_toNat_eq
  simp only [lowNibble_toNat, toNat_append_eq]
  omega

end

/-- A word is its two bytes, the high one first (R76). -/
theorem wordOfBytes_bytes (w : Word) : wordOfBytes (w.extractLsb' 8 8) (w.extractLsb' 0 8) = w := by
  apply BitVec.eq_of_toNat_eq
  simp only [wordOfBytes, toNat_append_eq, BitVec.extractLsb'_toNat, Nat.shiftRight_eq_div_pow]
  omega

/-- A word fetched from two bytes, as a number (R76). -/
theorem wordOfBytes_toNat (hi lo : Byte) : (wordOfBytes hi lo).toNat = hi.toNat * 256 + lo.toNat := by
  simp only [wordOfBytes, toNat_append_eq]
  norm_num

/-! ### The masks of the opcode map (R105) -/

/-- A word is its four nibbles (R8). -/
theorem word_nibbles (w : Word) :
    w = classOf w ++ w.extractLsb' 8 4 ++ w.extractLsb' 4 4 ++ lowNibble w := by
  apply BitVec.eq_of_toNat_eq
  simp only [toNat_append_eq, classOf, lowNibble, BitVec.extractLsb'_toNat, Nat.shiftRight_eq_div_pow]
  omega

/-- A word is its class nibble, its X nibble and its low byte (R102). -/
theorem word_byte (w : Word) : w = classOf w ++ w.extractLsb' 8 4 ++ lowByte w := by
  apply BitVec.eq_of_toNat_eq
  simp only [toNat_append_eq, classOf, lowByte, BitVec.extractLsb'_toNat, Nat.shiftRight_eq_div_pow]
  omega

/-- The class mask leaves the class nibble. -/
theorem mask_class (w : Word) : w &&& 0xF000 = classOf w ++ 0x0#4 ++ 0x0#4 ++ 0x0#4 := by
  have hm : (0xF000 : Word) = 0xF#4 ++ 0x0#4 ++ 0x0#4 ++ 0x0#4 := rfl
  have h1 : ∀ a : Nibble, a &&& 0xF#4 = a := by decide
  conv_lhs => rw [word_nibbles w, hm]
  rw [BitVec.and_append, BitVec.and_append, BitVec.and_append]
  simp [h1]

/-- The class and low-nibble mask leaves those two nibbles. -/
theorem mask_nibble (w : Word) : w &&& 0xF00F = classOf w ++ 0x0#4 ++ 0x0#4 ++ lowNibble w := by
  have hm : (0xF00F : Word) = 0xF#4 ++ 0x0#4 ++ 0x0#4 ++ 0xF#4 := rfl
  have h1 : ∀ a : Nibble, a &&& 0xF#4 = a := by decide
  conv_lhs => rw [word_nibbles w, hm]
  rw [BitVec.and_append, BitVec.and_append, BitVec.and_append]
  simp [h1]

/-- The class and low-byte mask leaves the class nibble and the low byte. -/
theorem mask_byte (w : Word) : w &&& 0xF0FF = classOf w ++ 0x0#4 ++ lowByte w := by
  have hm : (0xF0FF : Word) = 0xF#4 ++ 0x0#4 ++ 0xFF#8 := rfl
  have h1 : ∀ a : Nibble, a &&& 0xF#4 = a := by decide
  have h2 : ∀ a : Byte, a &&& 0xFF#8 = a := by decide
  conv_lhs => rw [word_byte w, hm]
  rw [BitVec.and_append, BitVec.and_append]
  simp [h1, h2]

/-- A row selected by the class covers the words of that class. -/
theorem classRow_covers (k : Nibble) (w : Word) :
    (classRow (k ++ 0x0#4 ++ 0x0#4 ++ 0x0#4)).covers w = true ↔ classOf w = k := by
  simp only [classRow, OpcodeRow.covers, mask_class, beq_iff_eq]
  exact ⟨fun h => by simpa using congrArg classOf h, fun h => by rw [h]⟩

/-- A row selected by the class and the low nibble covers the words with those two nibbles. -/
theorem nibbleRow_covers (k d : Nibble) (w : Word) :
    (nibbleRow (k ++ 0x0#4 ++ 0x0#4 ++ d)).covers w = true ↔ classOf w = k ∧ lowNibble w = d := by
  simp only [nibbleRow, OpcodeRow.covers, mask_nibble, beq_iff_eq]
  exact ⟨fun h => ⟨by simpa using congrArg classOf h, by simpa using congrArg lowNibble h⟩,
    fun h => by rw [h.1, h.2]⟩

/-- A row selected by the class and the low byte covers the words with that class and byte. -/
theorem byteRow_covers (k : Nibble) (d : Byte) (w : Word) :
    (byteRow (k ++ 0x0#4 ++ d)).covers w = true ↔ classOf w = k ∧ lowByte w = d := by
  simp only [byteRow, OpcodeRow.covers, mask_byte, beq_iff_eq]
  exact ⟨fun h => ⟨by simpa using congrArg classOf h, by simpa using congrArg lowByte h⟩,
    fun h => by rw [h.1, h.2]⟩

end Sys2Proof
end

