-- ==== Sys2Proof/Laws/State.lean ====
section
/-!
SUPPORT. One lemma per field of `State` per named update, each true by `rfl`, so that no later proof
unfolds a record update.
-/

namespace Sys2Proof.Machine

/-! ### writeV: `V[x] ← b` -/

@[simp] theorem writeV_v (x : Reg) (b : Byte) (s : State) : (writeV x b s).v = s.v.set x.val b := rfl
@[simp] theorem writeV_i (x : Reg) (b : Byte) (s : State) : (writeV x b s).i = s.i := rfl
@[simp] theorem writeV_pc (x : Reg) (b : Byte) (s : State) : (writeV x b s).pc = s.pc := rfl
@[simp] theorem writeV_sp (x : Reg) (b : Byte) (s : State) : (writeV x b s).sp = s.sp := rfl
@[simp] theorem writeV_stack (x : Reg) (b : Byte) (s : State) : (writeV x b s).stack = s.stack := rfl
@[simp] theorem writeV_mem (x : Reg) (b : Byte) (s : State) : (writeV x b s).mem = s.mem := rfl
@[simp] theorem writeV_dt (x : Reg) (b : Byte) (s : State) : (writeV x b s).dt = s.dt := rfl
@[simp] theorem writeV_st (x : Reg) (b : Byte) (s : State) : (writeV x b s).st = s.st := rfl
@[simp] theorem writeV_fb (x : Reg) (b : Byte) (s : State) : (writeV x b s).fb = s.fb := rfl
@[simp] theorem writeV_key (x : Reg) (b : Byte) (s : State) : (writeV x b s).key = s.key := rfl
@[simp] theorem writeV_iw (x : Reg) (b : Byte) (s : State) : (writeV x b s).iw = s.iw := rfl
@[simp] theorem writeV_fault (x : Reg) (b : Byte) (s : State) : (writeV x b s).fault = s.fault := rfl
@[simp] theorem writeV_rnd (x : Reg) (b : Byte) (s : State) : (writeV x b s).rnd = s.rnd := rfl
@[simp] theorem writeV_rndSeq (x : Reg) (b : Byte) (s : State) : (writeV x b s).rndSeq = s.rndSeq := rfl

/-! ### writeFlagged: a flag and a result -/

@[simp] theorem writeFlagged_v (x : Reg) (c : Bool) (b : Byte) (s : State) : (writeFlagged x c b s).v = (s.v.set flagReg.val (flagByte c)).set x.val b := rfl
@[simp] theorem writeFlagged_i (x : Reg) (c : Bool) (b : Byte) (s : State) : (writeFlagged x c b s).i = s.i := rfl
@[simp] theorem writeFlagged_pc (x : Reg) (c : Bool) (b : Byte) (s : State) : (writeFlagged x c b s).pc = s.pc := rfl
@[simp] theorem writeFlagged_sp (x : Reg) (c : Bool) (b : Byte) (s : State) : (writeFlagged x c b s).sp = s.sp := rfl
@[simp] theorem writeFlagged_stack (x : Reg) (c : Bool) (b : Byte) (s : State) : (writeFlagged x c b s).stack = s.stack := rfl
@[simp] theorem writeFlagged_mem (x : Reg) (c : Bool) (b : Byte) (s : State) : (writeFlagged x c b s).mem = s.mem := rfl
@[simp] theorem writeFlagged_dt (x : Reg) (c : Bool) (b : Byte) (s : State) : (writeFlagged x c b s).dt = s.dt := rfl
@[simp] theorem writeFlagged_st (x : Reg) (c : Bool) (b : Byte) (s : State) : (writeFlagged x c b s).st = s.st := rfl
@[simp] theorem writeFlagged_fb (x : Reg) (c : Bool) (b : Byte) (s : State) : (writeFlagged x c b s).fb = s.fb := rfl
@[simp] theorem writeFlagged_key (x : Reg) (c : Bool) (b : Byte) (s : State) : (writeFlagged x c b s).key = s.key := rfl
@[simp] theorem writeFlagged_iw (x : Reg) (c : Bool) (b : Byte) (s : State) : (writeFlagged x c b s).iw = s.iw := rfl
@[simp] theorem writeFlagged_fault (x : Reg) (c : Bool) (b : Byte) (s : State) : (writeFlagged x c b s).fault = s.fault := rfl
@[simp] theorem writeFlagged_rnd (x : Reg) (c : Bool) (b : Byte) (s : State) : (writeFlagged x c b s).rnd = s.rnd := rfl
@[simp] theorem writeFlagged_rndSeq (x : Reg) (c : Bool) (b : Byte) (s : State) : (writeFlagged x c b s).rndSeq = s.rndSeq := rfl

/-! ### skipIf: a skip -/

@[simp] theorem skipIf_v (c : Bool) (s : State) : (skipIf c s).v = s.v := rfl
@[simp] theorem skipIf_i (c : Bool) (s : State) : (skipIf c s).i = s.i := rfl
@[simp] theorem skipIf_pc (c : Bool) (s : State) : (skipIf c s).pc = if c then s.pc + 2 else s.pc := rfl
@[simp] theorem skipIf_sp (c : Bool) (s : State) : (skipIf c s).sp = s.sp := rfl
@[simp] theorem skipIf_stack (c : Bool) (s : State) : (skipIf c s).stack = s.stack := rfl
@[simp] theorem skipIf_mem (c : Bool) (s : State) : (skipIf c s).mem = s.mem := rfl
@[simp] theorem skipIf_dt (c : Bool) (s : State) : (skipIf c s).dt = s.dt := rfl
@[simp] theorem skipIf_st (c : Bool) (s : State) : (skipIf c s).st = s.st := rfl
@[simp] theorem skipIf_fb (c : Bool) (s : State) : (skipIf c s).fb = s.fb := rfl
@[simp] theorem skipIf_key (c : Bool) (s : State) : (skipIf c s).key = s.key := rfl
@[simp] theorem skipIf_iw (c : Bool) (s : State) : (skipIf c s).iw = s.iw := rfl
@[simp] theorem skipIf_fault (c : Bool) (s : State) : (skipIf c s).fault = s.fault := rfl
@[simp] theorem skipIf_rnd (c : Bool) (s : State) : (skipIf c s).rnd = s.rnd := rfl
@[simp] theorem skipIf_rndSeq (c : Bool) (s : State) : (skipIf c s).rndSeq = s.rndSeq := rfl

/-! ### enterFault: fault entry -/

@[simp] theorem enterFault_v (f : Fault) (p w : Word) (s : State) : (enterFault f p w s).v = s.v := rfl
@[simp] theorem enterFault_i (f : Fault) (p w : Word) (s : State) : (enterFault f p w s).i = s.i := rfl
@[simp] theorem enterFault_pc (f : Fault) (p w : Word) (s : State) : (enterFault f p w s).pc = s.pc := rfl
@[simp] theorem enterFault_sp (f : Fault) (p w : Word) (s : State) : (enterFault f p w s).sp = s.sp := rfl
@[simp] theorem enterFault_stack (f : Fault) (p w : Word) (s : State) : (enterFault f p w s).stack = s.stack := rfl
@[simp] theorem enterFault_mem (f : Fault) (p w : Word) (s : State) : (enterFault f p w s).mem = s.mem := rfl
@[simp] theorem enterFault_dt (f : Fault) (p w : Word) (s : State) : (enterFault f p w s).dt = s.dt := rfl
@[simp] theorem enterFault_st (f : Fault) (p w : Word) (s : State) : (enterFault f p w s).st = s.st := rfl
@[simp] theorem enterFault_fb (f : Fault) (p w : Word) (s : State) : (enterFault f p w s).fb = s.fb := rfl
@[simp] theorem enterFault_key (f : Fault) (p w : Word) (s : State) : (enterFault f p w s).key = s.key := rfl
@[simp] theorem enterFault_iw (f : Fault) (p w : Word) (s : State) : (enterFault f p w s).iw = s.iw := rfl
@[simp] theorem enterFault_fault (f : Fault) (p w : Word) (s : State) : (enterFault f p w s).fault = faultRecord f p w := rfl
@[simp] theorem enterFault_rnd (f : Fault) (p w : Word) (s : State) : (enterFault f p w s).rnd = s.rnd := rfl
@[simp] theorem enterFault_rndSeq (f : Fault) (p w : Word) (s : State) : (enterFault f p w s).rndSeq = s.rndSeq := rfl

/-! ### advance: fetch and advance -/

@[simp] theorem advance_v (w : Word) (s : State) : (advance w s).v = s.v := rfl
@[simp] theorem advance_i (w : Word) (s : State) : (advance w s).i = s.i := rfl
@[simp] theorem advance_pc (w : Word) (s : State) : (advance w s).pc = s.pc + 2 := rfl
@[simp] theorem advance_sp (w : Word) (s : State) : (advance w s).sp = s.sp := rfl
@[simp] theorem advance_stack (w : Word) (s : State) : (advance w s).stack = s.stack := rfl
@[simp] theorem advance_mem (w : Word) (s : State) : (advance w s).mem = s.mem := rfl
@[simp] theorem advance_dt (w : Word) (s : State) : (advance w s).dt = s.dt := rfl
@[simp] theorem advance_st (w : Word) (s : State) : (advance w s).st = s.st := rfl
@[simp] theorem advance_fb (w : Word) (s : State) : (advance w s).fb = s.fb := rfl
@[simp] theorem advance_key (w : Word) (s : State) : (advance w s).key = s.key := rfl
@[simp] theorem advance_iw (w : Word) (s : State) : (advance w s).iw = w := rfl
@[simp] theorem advance_fault (w : Word) (s : State) : (advance w s).fault = s.fault := rfl
@[simp] theorem advance_rnd (w : Word) (s : State) : (advance w s).rnd = s.rnd := rfl
@[simp] theorem advance_rndSeq (w : Word) (s : State) : (advance w s).rndSeq = s.rndSeq := rfl

/-! ### finish: decay and the next random offer -/

@[simp] theorem finish_v (s : State) : (finish s).v = s.v := rfl
@[simp] theorem finish_i (s : State) : (finish s).i = s.i := rfl
@[simp] theorem finish_pc (s : State) : (finish s).pc = s.pc := rfl
@[simp] theorem finish_sp (s : State) : (finish s).sp = s.sp := rfl
@[simp] theorem finish_stack (s : State) : (finish s).stack = s.stack := rfl
@[simp] theorem finish_mem (s : State) : (finish s).mem = s.mem := rfl
@[simp] theorem finish_dt (s : State) : (finish s).dt = countDown s.dt := rfl
@[simp] theorem finish_st (s : State) : (finish s).st = countDown s.st := rfl
@[simp] theorem finish_fb (s : State) : (finish s).fb = s.fb := rfl
@[simp] theorem finish_key (s : State) : (finish s).key = s.key := rfl
@[simp] theorem finish_iw (s : State) : (finish s).iw = s.iw := rfl
@[simp] theorem finish_fault (s : State) : (finish s).fault = s.fault := rfl
@[simp] theorem finish_rnd (s : State) : (finish s).rnd = Config.rndByte (s.rndSeq + 1) := rfl
@[simp] theorem finish_rndSeq (s : State) : (finish s).rndSeq = s.rndSeq + 1 := rfl

/-! ### hostKeys: the host's keys -/

@[simp] theorem hostKeys_v (k : Vector Bool 16) (s : State) : (hostKeys k s).v = s.v := rfl
@[simp] theorem hostKeys_i (k : Vector Bool 16) (s : State) : (hostKeys k s).i = s.i := rfl
@[simp] theorem hostKeys_pc (k : Vector Bool 16) (s : State) : (hostKeys k s).pc = s.pc := rfl
@[simp] theorem hostKeys_sp (k : Vector Bool 16) (s : State) : (hostKeys k s).sp = s.sp := rfl
@[simp] theorem hostKeys_stack (k : Vector Bool 16) (s : State) : (hostKeys k s).stack = s.stack := rfl
@[simp] theorem hostKeys_mem (k : Vector Bool 16) (s : State) : (hostKeys k s).mem = s.mem := rfl
@[simp] theorem hostKeys_dt (k : Vector Bool 16) (s : State) : (hostKeys k s).dt = s.dt := rfl
@[simp] theorem hostKeys_st (k : Vector Bool 16) (s : State) : (hostKeys k s).st = s.st := rfl
@[simp] theorem hostKeys_fb (k : Vector Bool 16) (s : State) : (hostKeys k s).fb = s.fb := rfl
@[simp] theorem hostKeys_key (k : Vector Bool 16) (s : State) : (hostKeys k s).key = k := rfl
@[simp] theorem hostKeys_iw (k : Vector Bool 16) (s : State) : (hostKeys k s).iw = s.iw := rfl
@[simp] theorem hostKeys_fault (k : Vector Bool 16) (s : State) : (hostKeys k s).fault = s.fault := rfl
@[simp] theorem hostKeys_rnd (k : Vector Bool 16) (s : State) : (hostKeys k s).rnd = s.rnd := rfl
@[simp] theorem hostKeys_rndSeq (k : Vector Bool 16) (s : State) : (hostKeys k s).rndSeq = s.rndSeq := rfl

/-! ### hostRnd: the host's random offer -/

@[simp] theorem hostRnd_v (b : Byte) (s : State) : (hostRnd b s).v = s.v := rfl
@[simp] theorem hostRnd_i (b : Byte) (s : State) : (hostRnd b s).i = s.i := rfl
@[simp] theorem hostRnd_pc (b : Byte) (s : State) : (hostRnd b s).pc = s.pc := rfl
@[simp] theorem hostRnd_sp (b : Byte) (s : State) : (hostRnd b s).sp = s.sp := rfl
@[simp] theorem hostRnd_stack (b : Byte) (s : State) : (hostRnd b s).stack = s.stack := rfl
@[simp] theorem hostRnd_mem (b : Byte) (s : State) : (hostRnd b s).mem = s.mem := rfl
@[simp] theorem hostRnd_dt (b : Byte) (s : State) : (hostRnd b s).dt = s.dt := rfl
@[simp] theorem hostRnd_st (b : Byte) (s : State) : (hostRnd b s).st = s.st := rfl
@[simp] theorem hostRnd_fb (b : Byte) (s : State) : (hostRnd b s).fb = s.fb := rfl
@[simp] theorem hostRnd_key (b : Byte) (s : State) : (hostRnd b s).key = s.key := rfl
@[simp] theorem hostRnd_iw (b : Byte) (s : State) : (hostRnd b s).iw = s.iw := rfl
@[simp] theorem hostRnd_fault (b : Byte) (s : State) : (hostRnd b s).fault = s.fault := rfl
@[simp] theorem hostRnd_rnd (b : Byte) (s : State) : (hostRnd b s).rnd = b := rfl
@[simp] theorem hostRnd_rndSeq (b : Byte) (s : State) : (hostRnd b s).rndSeq = s.rndSeq := rfl

/-! ### hostReset: the host's reset -/

@[simp] theorem hostReset_v (s : State) : (hostReset s).v = State.reset.v := rfl
@[simp] theorem hostReset_i (s : State) : (hostReset s).i = State.reset.i := rfl
@[simp] theorem hostReset_pc (s : State) : (hostReset s).pc = State.reset.pc := rfl
@[simp] theorem hostReset_sp (s : State) : (hostReset s).sp = State.reset.sp := rfl
@[simp] theorem hostReset_stack (s : State) : (hostReset s).stack = State.reset.stack := rfl
@[simp] theorem hostReset_mem (s : State) : (hostReset s).mem = State.reset.mem := rfl
@[simp] theorem hostReset_dt (s : State) : (hostReset s).dt = State.reset.dt := rfl
@[simp] theorem hostReset_st (s : State) : (hostReset s).st = State.reset.st := rfl
@[simp] theorem hostReset_fb (s : State) : (hostReset s).fb = State.reset.fb := rfl
@[simp] theorem hostReset_key (s : State) : (hostReset s).key = State.reset.key := rfl
@[simp] theorem hostReset_iw (s : State) : (hostReset s).iw = State.reset.iw := rfl
@[simp] theorem hostReset_fault (s : State) : (hostReset s).fault = State.reset.fault := rfl
@[simp] theorem hostReset_rnd (s : State) : (hostReset s).rnd = s.rnd := rfl
@[simp] theorem hostReset_rndSeq (s : State) : (hostReset s).rndSeq = s.rndSeq := rfl

end Sys2Proof.Machine
end

