-- ==== Sys2Proof/Laws/Engine.lean ====
section
/-!
SUPPORT. What a step can do, said once (spec/40_dispatch.md R149): the end of a step, and the five ways
a step that answers a next state got there. Later proofs cite these and do not unfold the engine.
-/

namespace Sys2Proof.Machine

/-- All the end of a step can do with a handler that answered a next state (R147, R148). -/
theorem commit_next (s u : State) :
    (u.fault.active = true ∧ commit s (.next u) = .next { s with fault := u.fault }) ∨
    (u.fault.active = false ∧ commit s (.next u) = .next (finish u)) := by
  cases h : u.fault.active
  · exact .inr ⟨rfl, by simp [commit, h]⟩
  · exact .inl ⟨rfl, by simp [commit, h]⟩

/-- The end of a step answers a next state only if the handler did. -/
theorem commit_inv {s t : State} {a : Answer} (h : commit s a = .next t) :
    ∃ u, a = .next u ∧
      ((u.fault.active = true ∧ t = { s with fault := u.fault }) ∨
       (u.fault.active = false ∧ t = finish u)) := by
  cases a with
  | next u =>
    refine ⟨u, rfl, ?_⟩
    obtain ⟨h1, h2⟩ | ⟨h1, h2⟩ := commit_next s u <;> rw [h2] at h
    · exact .inl ⟨h1, by cases h; rfl⟩
    · exact .inr ⟨h1, by cases h; rfl⟩
  | fault f => simp [commit] at h
  | refused r => simp [commit] at h

/-- The five ways a step answers a next state: halted; fetch fault; decode fault; a fault of the
handler; completed. -/
theorem step_cases {s t : State} (h : step s = .next t) :
    (s.fault.active = true ∧ t = s) ∨
    (s.fault.active = false ∧ ∃ f, fetch16 s.pc.toNat s.mem = .error f ∧ t = enterFault f s.pc 0 s) ∨
    (s.fault.active = false ∧ ∃ w r, fetch16 s.pc.toNat s.mem = .ok w ∧ decode w = .error r ∧
      t = enterFault .decode s.pc w s) ∨
    (s.fault.active = false ∧ ∃ w i u, fetch16 s.pc.toNat s.mem = .ok w ∧ decode w = .ok i ∧
      exec i (advance w s) = .next u ∧ u.fault.active = true ∧ t = { s with fault := u.fault }) ∨
    (s.fault.active = false ∧ ∃ w i u, fetch16 s.pc.toNat s.mem = .ok w ∧ decode w = .ok i ∧
      exec i (advance w s) = .next u ∧ u.fault.active = false ∧ t = finish u) := by
  cases ha : s.fault.active with
  | true =>
    simp only [step, ha, if_true] at h
    exact .inl ⟨rfl, by cases h; rfl⟩
  | false =>
    simp only [step, ha, Bool.false_eq_true, if_false, runStep] at h
    cases hf : fetch16 s.pc.toNat s.mem with
    | error f =>
      rw [hf] at h
      exact .inr (.inl ⟨rfl, f, rfl, by cases h; rfl⟩)
    | ok w =>
      simp only [hf, runWord] at h
      cases hd : decode w with
      | error r =>
        rw [hd] at h
        exact .inr (.inr (.inl ⟨rfl, w, r, rfl, hd, by cases h; rfl⟩))
      | ok i =>
        rw [hd] at h
        obtain ⟨u, hu, h1 | h1⟩ := commit_inv h
        · exact .inr (.inr (.inr (.inl ⟨rfl, w, i, u, rfl, hd, hu, h1⟩)))
        · exact .inr (.inr (.inr (.inr ⟨rfl, w, i, u, rfl, hd, hu, h1⟩)))

/-- A countdown unit as a number: down by one, stopping at zero (R266). -/
theorem countDown_toNat (t : Byte) : (countDown t).toNat = t.toNat - 1 := by
  unfold countDown
  split
  · have := t.isLt
    rw [BitVec.toNat_sub, show (1 : Byte).toNat = 1 from rfl]
    omega
  · omega

end Sys2Proof.Machine
end

