-- ==== Sys2Proof/Laws/Memory.lean ====
section
/-!
SUPPORT. Memory: reading after writing, and that every memory operation keeps the canonical form; then
one lemma for each checked access, saying once everything it can do.
-/

namespace Sys2Proof.Machine

/-! ### Reading after writing -/

@[simp] theorem Memory.peek_nil (a : Nat) : Memory.peek [] a = resetByte a := rfl

@[simp] theorem Memory.peek_head (p : Host.Cell) (m : Memory) (a : Nat) :
    Memory.peek (p :: m) a = if a = p.1 then p.2 else Memory.peek m a := rfl

theorem Memory.wfFrom_mono {low low' : Nat} {m : Memory} (h : low' ≤ low)
    (hm : Memory.wfFrom low m = true) : Memory.wfFrom low' m = true := by
  cases m with
  | nil => rfl
  | cons p m =>
    simp only [Memory.wfFrom, Bool.and_eq_true, decide_eq_true_eq] at hm ⊢
    exact ⟨⟨⟨by omega, hm.1.1.2⟩, hm.1.2⟩, hm.2⟩

/-- Below its lowest listed address memory reads as its reset contents. -/
theorem Memory.peek_below {low a : Nat} {m : Memory} (hm : Memory.wfFrom low m = true) (h : a < low) :
    m.peek a = resetByte a := by
  induction m generalizing low with
  | nil => rfl
  | cons p m ih =>
    simp only [Memory.wfFrom, Bool.and_eq_true, decide_eq_true_eq] at hm
    have hne : a ≠ p.1 := by omega
    rw [Memory.peek_head, if_neg hne]
    exact ih hm.2 (by omega)

/-- Above the address space memory in canonical form lists nothing. -/
theorem Memory.peek_beyond {low a : Nat} {m : Memory} (hm : Memory.wfFrom low m = true)
    (h : Config.memSize ≤ a) : m.peek a = resetByte a := by
  induction m generalizing low with
  | nil => rfl
  | cons p m ih =>
    simp only [Memory.wfFrom, Bool.and_eq_true, decide_eq_true_eq] at hm
    have hne : a ≠ p.1 := by omega
    rw [Memory.peek_head, if_neg hne]
    exact ih hm.2

theorem Memory.peek_cons_other {a c : Nat} (b : Byte) (m : Memory) (h : c ≠ a) :
    (Memory.cons a b m).peek c = m.peek c := by
  unfold Memory.cons
  split <;> simp [h]

theorem Memory.peek_cons_self {a : Nat} (b : Byte) {m : Memory} (h : m.peek a = resetByte a) :
    (Memory.cons a b m).peek a = b := by
  unfold Memory.cons
  split <;> simp_all

theorem Memory.peek_insert_other {a c : Nat} (b : Byte) (m : Memory) (h : c ≠ a) :
    (Memory.insert a b m).peek c = m.peek c := by
  induction m with
  | nil => exact Memory.peek_cons_other b [] h
  | cons p m ih =>
    simp only [Memory.insert]
    split
    · exact Memory.peek_cons_other b _ h
    · split
      · rename_i hp
        rw [Memory.peek_cons_other b m h, Memory.peek_head, if_neg (by omega)]
      · simp [ih]

theorem Memory.peek_insert_self {low a : Nat} (b : Byte) {m : Memory} (hm : Memory.wfFrom low m = true) :
    (Memory.insert a b m).peek a = b := by
  induction m generalizing low with
  | nil => exact Memory.peek_cons_self b rfl
  | cons p m ih =>
    have hp := hm
    simp only [Memory.wfFrom, Bool.and_eq_true, decide_eq_true_eq] at hm
    simp only [Memory.insert]
    split
    · rename_i hlt
      refine Memory.peek_cons_self b ?_
      rw [Memory.peek_head, if_neg (by omega)]
      exact Memory.peek_below hm.2 (by omega)
    · split
      · rename_i hlt heq
        exact Memory.peek_cons_self b (Memory.peek_below hm.2 (by omega))
      · rename_i hlt hne
        rw [Memory.peek_head, if_neg hne]
        exact ih hm.2

/-- Reading one byte after writing one byte. -/
theorem Memory.peek_poke {a c : Nat} (b : Byte) {m : Memory} (hm : m.wf = true)
    (ha : a < Config.memSize) : (m.poke a b).peek c = if c = a then b else m.peek c := by
  rw [Memory.poke, if_pos ha]
  split
  · rename_i h
    subst h
    exact Memory.peek_insert_self b hm
  · rename_i h
    exact Memory.peek_insert_other b m h

/-- A write changes no other byte, whatever the memory's form. -/
theorem Memory.peek_poke_other {a c : Nat} (b : Byte) (m : Memory) (h : c ≠ a) :
    (m.poke a b).peek c = m.peek c := by
  unfold Memory.poke
  split
  · exact Memory.peek_insert_other b m h
  · rfl

/-! ### The canonical form is kept -/

theorem Memory.wfFrom_cons {low a : Nat} (b : Byte) {m : Memory} (hlow : low ≤ a)
    (ha : a < Config.memSize) (hm : Memory.wfFrom (a + 1) m = true) :
    Memory.wfFrom low (Memory.cons a b m) = true := by
  unfold Memory.cons
  split
  · exact Memory.wfFrom_mono (by omega) hm
  · rename_i hb
    simp only [Memory.wfFrom, Bool.and_eq_true, decide_eq_true_eq, bne_iff_ne]
    exact ⟨⟨⟨hlow, ha⟩, hb⟩, hm⟩

theorem Memory.wfFrom_insert {low a : Nat} (b : Byte) {m : Memory} (hlow : low ≤ a)
    (ha : a < Config.memSize) (hm : Memory.wfFrom low m = true) :
    Memory.wfFrom low (Memory.insert a b m) = true := by
  induction m generalizing low with
  | nil => exact Memory.wfFrom_cons b hlow ha rfl
  | cons p m ih =>
    have hp := hm
    simp only [Memory.wfFrom, Bool.and_eq_true, decide_eq_true_eq] at hm
    simp only [Memory.insert]
    split
    · refine Memory.wfFrom_cons b hlow ha ?_
      simp only [Memory.wfFrom, Bool.and_eq_true, decide_eq_true_eq]
      exact ⟨⟨⟨by omega, hm.1.1.2⟩, hm.1.2⟩, hm.2⟩
    · split
      · rename_i hlt heq
        subst heq
        exact Memory.wfFrom_cons b hlow ha hm.2
      · rename_i hlt hne
        simp only [Memory.wfFrom, Bool.and_eq_true, decide_eq_true_eq]
        exact ⟨hm.1, ih (by omega) hm.2⟩

/-- An unchecked write keeps the canonical form. -/
theorem Memory.wf_poke {a : Nat} (b : Byte) {m : Memory} (hm : m.wf = true) : (m.poke a b).wf = true := by
  unfold Memory.poke
  split
  · rename_i ha
    exact Memory.wfFrom_insert b (Nat.zero_le a) ha hm
  · exact hm

/-- The host's load keeps the canonical form. -/
theorem Memory.wf_pokes {a : Nat} (bytes : List Byte) {m : Memory} (hm : m.wf = true) :
    (m.pokes a bytes).wf = true := by
  induction bytes generalizing a m with
  | nil => exact hm
  | cons b rest ih => exact ih (Memory.wf_poke b hm)

/-- The host's load changes no byte outside the run it writes. -/
theorem Memory.peek_pokes_other {a c : Nat} (bytes : List Byte) (m : Memory)
    (h : c < a ∨ a + bytes.length ≤ c) : (m.pokes a bytes).peek c = m.peek c := by
  induction bytes generalizing a m with
  | nil => rfl
  | cons b rest ih =>
    simp only [List.length_cons] at h
    rw [Memory.pokes, ih _ (by omega), Memory.peek_poke_other b m (by omega)]

/-- The host's load leaves the run it writes holding its bytes. -/
theorem Memory.peek_pokes {a k : Nat} (bytes : List Byte) {m : Memory} (hm : m.wf = true)
    (hk : k < bytes.length) (ha : a + bytes.length ≤ Config.memSize) :
    (m.pokes a bytes).peek (a + k) = bytes[k] := by
  induction bytes generalizing a k m with
  | nil => simp at hk
  | cons b rest ih =>
    simp only [List.length_cons] at hk ha
    cases k with
    | zero =>
      rw [Memory.pokes, Memory.peek_pokes_other _ _ (by omega), Memory.peek_poke b hm (by omega)]
      simp
    | succ k =>
      have := ih (a := a + 1) (k := k) (Memory.wf_poke b hm (a := a)) (by omega) (by omega)
      simpa [Memory.pokes, Nat.add_assoc, Nat.add_comm 1 k] using this

/-- Every byte after a run is written: the run's byte where it reaches, else the byte from before. -/
theorem Memory.peek_pokes_eq {a : Nat} (bytes : List Byte) {m : Memory} (hm : m.wf = true)
    (ha : bytes = [] ∨ a + bytes.length ≤ Config.memSize) (c : Nat) :
    (m.pokes a bytes).peek c = if a ≤ c then bytes[c - a]?.getD (m.peek c) else m.peek c := by
  obtain rfl | ha := ha
  · simp [Memory.pokes]
  · by_cases h : a ≤ c ∧ c < a + bytes.length
    · obtain ⟨k, rfl⟩ := Nat.exists_eq_add_of_le h.1
      have hk : k < bytes.length := by omega
      simp [Memory.peek_pokes bytes hm hk ha, hk]
    · rw [Memory.peek_pokes_other bytes m (by omega)]
      split
      · rw [List.getElem?_eq_none (by omega), Option.getD_none]
      · rfl

/-- The reset memory is in canonical form. -/
theorem State.reset_wf : State.reset.mem.wf = true := rfl

/-! ### The checked accesses -/

/-- All a byte read can do (R80). -/
theorem memRead_cases (a : Nat) (m : Memory) :
    (a < Config.memSize ∧ memRead a m = .ok (m.peek a)) ∨
    (Config.memSize ≤ a ∧ memRead a m = .error (.addressing .read (addrOf a))) := by
  unfold memRead
  split
  · exact .inl ⟨‹_›, rfl⟩
  · exact .inr ⟨by omega, rfl⟩

/-- All a byte write can do (R80, R81, R306). -/
theorem memWrite_cases (a : Nat) (b : Byte) (m : Memory) :
    (Config.progBase ≤ a ∧ a < Config.memSize ∧ memWrite a b m = .ok (m.poke a b)) ∨
    (a < Config.progBase ∧ memWrite a b m = .error (.reservedWrite (addrOf a))) ∨
    (Config.memSize ≤ a ∧ memWrite a b m = .error (.addressing .write (addrOf a))) := by
  unfold memWrite
  split
  · split
    · exact .inr (.inl ⟨‹_›, rfl⟩)
    · exact .inl ⟨by omega, ‹_›, rfl⟩
  · exact .inr (.inr ⟨by omega, rfl⟩)

/-- All a fetch can do (R76, R80). -/
theorem fetch16_cases (a : Nat) (m : Memory) :
    (a + 1 < Config.memSize ∧ fetch16 a m = .ok (m.peek a ++ m.peek (a + 1))) ∨
    (Config.memSize ≤ a + 1 ∧ fetch16 a m = .error (.addressing .fetch (addrOf a))) := by
  unfold fetch16
  split
  · exact .inl ⟨‹_›, rfl⟩
  · exact .inr ⟨by omega, rfl⟩

/-- A run of reads answers exactly when every address exists, and then with the bytes in order. -/
theorem loadBytes_ok {a n : Nat} (m : Memory) (h : n = 0 ∨ a + n ≤ Config.memSize) :
    loadBytes a m n = .ok ((List.range' a n).map m.peek) := by
  induction n generalizing a with
  | zero => rfl
  | succ n ih =>
    have ha : a < Config.memSize := by omega
    simp only [loadBytes, memRead, if_pos ha, ih (a := a + 1) (by omega), List.range'_succ, List.map_cons]

/-- A run of reads whose first bad offset is `k` reports that address (R306). -/
theorem loadBytes_error {a n k : Nat} (m : Memory) (hk : k < n) (hbad : Config.memSize ≤ a + k)
    (hgood : ∀ j < k, a + j < Config.memSize) :
    loadBytes a m n = .error (.addressing .read (addrOf (a + k))) := by
  induction n generalizing a k with
  | zero => omega
  | succ n ih =>
    cases k with
    | zero =>
      have : ¬ a < Config.memSize := by omega
      simp only [loadBytes, memRead, if_neg this, Nat.add_zero]
    | succ k =>
      have ha : a < Config.memSize := hgood 0 (by omega)
      have := ih (a := a + 1) (k := k) (by omega) (by omega)
        (fun j hj => by have := hgood (j + 1) (by omega); omega)
      simp only [loadBytes, memRead, if_pos ha, this]
      rw [show a + 1 + k = a + (k + 1) by omega]

/-- A run of writes to addresses that may be written answers the memory with the bytes poked. -/
theorem storeBytes_ok {a : Nat} (bytes : List Byte) (m : Memory) (hlow : Config.progBase ≤ a)
    (hhigh : a + bytes.length ≤ Config.memSize) : storeBytes a m bytes = .ok (m.pokes a bytes) := by
  induction bytes generalizing a m with
  | nil => rfl
  | cons b rest ih =>
    simp only [List.length_cons] at hhigh
    have h1 : a < Config.memSize := by omega
    have h2 : ¬ a < Config.progBase := by omega
    simp only [storeBytes, memWrite, if_pos h1, if_neg h2]
    exact ih _ (by omega) (by omega)

/-- A run of writes whose first bad offset is `k` reports that address (R306). -/
theorem storeBytes_error {a k : Nat} (bytes : List Byte) (m : Memory) (hk : k < bytes.length)
    (hgood : ∀ j < k, Config.progBase ≤ a + j ∧ a + j < Config.memSize)
    (hbad : a + k < Config.progBase ∨ Config.memSize ≤ a + k) :
    storeBytes a m bytes = .error
      (if Config.memSize ≤ a + k then .addressing .write (addrOf (a + k))
       else .reservedWrite (addrOf (a + k))) := by
  induction bytes generalizing a k m with
  | nil => simp at hk
  | cons b rest ih =>
    cases k with
    | zero =>
      obtain ⟨h1, h2, h⟩ | ⟨h1, h⟩ | ⟨h1, h⟩ := memWrite_cases a b m
      · omega
      · have : ¬ Config.memSize ≤ a := by simp only [Config.progBase, Config.memSize] at h1 ⊢; omega
        simp only [storeBytes, h, Nat.add_zero, if_neg this]
      · simp only [storeBytes, h, Nat.add_zero, if_pos h1]
    | succ k =>
      obtain ⟨h1, h2⟩ := hgood 0 (by omega)
      simp only [Nat.add_zero] at h1 h2
      simp only [storeBytes, memWrite, if_pos h2, if_neg (Nat.not_lt.mpr h1)]
      have := ih (a := a + 1) (k := k) (m.poke a b) (by simpa using hk)
        (fun j hj => by have := hgood (j + 1) (by omega); omega) (by omega)
      rw [show a + 1 + k = a + (k + 1) by omega] at this
      exact this

/-- Whatever a run of writes answers, it is the memory with the bytes poked, and every address of the
run may be written. -/
theorem storeBytes_inv {a : Nat} {bytes : List Byte} {m m' : Memory}
    (h : storeBytes a m bytes = .ok m') :
    m' = m.pokes a bytes ∧ (bytes = [] ∨ Config.progBase ≤ a ∧ a + bytes.length ≤ Config.memSize) := by
  induction bytes generalizing a m with
  | nil => simp_all [storeBytes, Memory.pokes]
  | cons b rest ih =>
    obtain ⟨h1, h2, hw⟩ | ⟨h1, hw⟩ | ⟨h1, hw⟩ := memWrite_cases a b m
    · simp only [storeBytes, hw] at h
      obtain ⟨h3, h4⟩ := ih h
      refine ⟨h3, .inr ⟨h1, ?_⟩⟩
      rcases h4 with h4 | h4
      · subst h4; simp only [List.length_singleton]; omega
      · simp only [List.length_cons]; omega
    · simp [storeBytes, hw] at h
    · simp [storeBytes, hw] at h

/-- A run of reads can fail in one way only (R80). -/
theorem loadBytes_error_kind {a n : Nat} {m : Memory} {f : Fault} (h : loadBytes a m n = .error f) :
    ∃ b, f = .addressing .read b := by
  induction n generalizing a with
  | zero => simp [loadBytes] at h
  | succ n ih =>
    obtain ⟨-, hr⟩ | ⟨-, hr⟩ := memRead_cases a m
    · simp only [loadBytes, hr] at h
      cases hl : loadBytes (a + 1) m n with
      | error g => rw [hl] at h; cases h; exact ih hl
      | ok rest => rw [hl] at h; cases h
    · simp only [loadBytes, hr] at h
      cases h
      exact ⟨_, rfl⟩

/-- A run of writes can fail in two ways only (R80, R81). -/
theorem storeBytes_error_kind {a : Nat} {bytes : List Byte} {m : Memory} {f : Fault}
    (h : storeBytes a m bytes = .error f) :
    (∃ b, f = .addressing .write b) ∨ ∃ b, f = .reservedWrite b := by
  induction bytes generalizing a m with
  | nil => simp [storeBytes] at h
  | cons b rest ih =>
    obtain ⟨-, -, hw⟩ | ⟨-, hw⟩ | ⟨-, hw⟩ := memWrite_cases a b m <;> simp only [storeBytes, hw] at h
    · exact ih h
    · cases h; exact .inr ⟨_, rfl⟩
    · cases h; exact .inl ⟨_, rfl⟩

/-- A run of writes keeps the canonical form. -/
theorem storeBytes_wf {a : Nat} {bytes : List Byte} {m m' : Memory} (hm : m.wf = true)
    (h : storeBytes a m bytes = .ok m') : m'.wf = true := by
  rw [(storeBytes_inv h).1]
  exact Memory.wf_pokes bytes hm

/-- A run of writes changes no reserved byte (R81). -/
theorem storeBytes_reserved {a c : Nat} {bytes : List Byte} {m m' : Memory}
    (h : storeBytes a m bytes = .ok m') (hc : c < Config.progBase) : m'.peek c = m.peek c := by
  obtain ⟨rfl, rfl | ⟨h1, -⟩⟩ := storeBytes_inv h
  · rfl
  · exact Memory.peek_pokes_other bytes m (.inl (by omega))

end Sys2Proof.Machine
end

