-- ==== Sys2Proof/Laws/Registers.lean ====
section
/-!
SUPPORT. Registers: reading `V[r]` after each of the writes, and what fault entry leaves.
-/

namespace Sys2Proof.Machine

/-- Reading a register after writing one. -/
@[simp] theorem readV_writeV (x r : Reg) (b : Byte) (s : State) :
    readV (writeV x b s) r = if r = x then b else readV s r := by
  simp only [readV, writeV_v, Vector.getElem_set]
  by_cases h : r = x
  · simp [h]
  · rw [if_neg (fun hv => h (Fin.ext hv.symm)), if_neg h]

/-- Reading a register after a flag and a result: the result wins where both go to VF (R181). -/
@[simp] theorem readV_writeFlagged (x r : Reg) (c : Bool) (b : Byte) (s : State) :
    readV (writeFlagged x c b s) r =
      if r = x then b else if r = flagReg then flagByte c else readV s r := by
  simp [writeFlagged]

/-- `writeV` changes nothing but `V`. -/
theorem writeV_frame (x : Reg) (b : Byte) (s : State) :
    writeV x b s = { s with v := (writeV x b s).v } := rfl

/-- `writeFlagged` changes nothing but `V`. -/
theorem writeFlagged_frame (x : Reg) (c : Bool) (b : Byte) (s : State) :
    writeFlagged x c b s = { s with v := (writeFlagged x c b s).v } := rfl

/-- Filling registers from number `k` on writes the bytes there are, and no other register. -/
theorem getElem_fillV (k : Nat) (bytes : List Byte) (v : Vector Byte 16) (r : Nat) (hr : r < 16) :
    (fillV k bytes v)[r] = if h : k ≤ r ∧ r - k < bytes.length then bytes[r - k] else v[r] := by
  induction bytes generalizing k v with
  | nil => simp [fillV]
  | cons b rest ih =>
    rw [fillV, ih]
    by_cases h1 : k + 1 ≤ r ∧ r - (k + 1) < rest.length
    · obtain ⟨ha, hb⟩ := h1
      rw [dif_pos ⟨ha, hb⟩, dif_pos ⟨by omega, by simp only [List.length_cons]; omega⟩,
        List.getElem_cons, dif_neg (by omega)]
      congr 1
    · rw [dif_neg h1]
      by_cases hk : k = r
      · subst hk
        simp [hr]
      · have hn : ¬ (k ≤ r ∧ r - k < (b :: rest).length) := by
          simp only [List.length_cons]
          omega
        rw [dif_neg hn]
        split
        · rw [Vector.getElem_set_ne _ _ hk]
        · rfl

/-- The registers LD [I] stores, by their length and their entries (R204). -/
@[simp] theorem length_blockV (s : State) (x : Reg) : (blockV s x).length = x.val + 1 := by
  simp only [blockV, List.length_take, Vector.length_toList]
  omega

theorem getElem_blockV (s : State) (x : Reg) (k : Nat) (h : k < (blockV s x).length) :
    (blockV s x)[k] = readV s ⟨k, by simp at h; omega⟩ := by
  simp [blockV, readV]

@[simp] theorem flagByte_true : flagByte true = 1 := rfl
@[simp] theorem flagByte_false : flagByte false = 0 := rfl

/-- Raising a fault answers a next state that differs from the handler's in `FAULT` alone (R310). -/
theorem raise_eq (f : Fault) (s : State) :
    raise f s = .next { s with fault := ⟨true, faultCode f, faultKind f, s.pc - 2, s.iw, faultAddr f⟩ } := rfl

@[simp] theorem faultRecord_active (f : Fault) (p w : Word) : (faultRecord f p w).active = true := rfl

@[simp] theorem faultRecord_pc (f : Fault) (p w : Word) : (faultRecord f p w).pc = p := rfl

@[simp] theorem faultRecord_word (f : Fault) (p w : Word) : (faultRecord f p w).word = w := rfl

/-- Whatever fault entry records is a legal record (R50, R300). -/
theorem faultRecord_legal (f : Fault) (p w : Word) : FaultLegal (faultRecord f p w) := by
  refine ⟨fun h => (by cases h), fun _ => ?_⟩
  cases f with
  | addressing k a => cases k <;> simp [faultRecord, faultCode, faultKind]
  | _ => simp [faultRecord, faultCode, faultKind]

end Sys2Proof.Machine
end

