-- ==== Sys2Proof/Laws/Exec.lean ====
section
/-!
SUPPORT. What any handler can do, said once over all instructions (spec/40_dispatch.md R145): it goes on
and keeps what `HandlerKeeps` lists, or it raises one of the faults a handler may raise. Later proofs
over all instructions cite `exec_cases` and do not unfold the meanings.
-/

namespace Sys2Proof.Machine

/-- What a handler that raised no fault leaves of the state `s` it ran on, in its next state `t`. -/
structure HandlerKeeps (s t : State) : Prop where
  fault : t.fault = s.fault
  iw : t.iw = s.iw
  key : t.key = s.key
  rnd : t.rnd = s.rnd
  rndSeq : t.rndSeq = s.rndSeq
  memCanonical : s.mem.wf = true → t.mem.wf = true
  reserved : ∀ a < Config.progBase, t.mem.peek a = s.mem.peek a
  stack : ∀ j : Fin 16, t.stack[j.val] = s.stack[j.val] ∨ t.stack[j.val] = s.pc
  pc : t.pc = s.pc ∨ t.pc.toNat ≤ 0xFFF ∨ t.pc = s.pc + 2 ∨ t.pc = s.pc - 2 ∨
    ∃ j : Fin 16, t.pc = s.stack[j.val]

/-- A fault some handler raises: not the decode phase's, not the fetch phase's (R300). -/
def Fault.byHandler : Fault → Prop
  | .addressing .fetch _ => False
  | .decode => False
  | _ => True

theorem HandlerKeeps.of_eq {s t : State} (hf : t.fault = s.fault) (hi : t.iw = s.iw) (hk : t.key = s.key)
    (hr : t.rnd = s.rnd) (hq : t.rndSeq = s.rndSeq) (hm : t.mem = s.mem) (hs : t.stack = s.stack)
    (hp : t.pc = s.pc ∨ t.pc.toNat ≤ 0xFFF ∨ t.pc = s.pc + 2 ∨ t.pc = s.pc - 2 ∨
      ∃ j : Fin 16, t.pc = s.stack[j.val]) : HandlerKeeps s t :=
  ⟨hf, hi, hk, hr, hq, by rw [hm]; exact id, by rw [hm]; exact fun _ _ => rfl,
    by rw [hs]; exact fun _ => .inl rfl, hp⟩

theorem HandlerKeeps.skipIf (c : Bool) (s : State) : HandlerKeeps s (skipIf c s) := by
  refine .of_eq rfl rfl rfl rfl rfl rfl rfl ?_
  cases c <;> simp

/-- A jump target of 12 bits is an address of memory (R103). -/
theorem zextAddr_toNat (nnn : Addr12) : (zextAddr nnn).toNat = nnn.toNat := by
  simp [zextAddr]
  omega

theorem indexedTarget_toNat (v0 : Byte) (nnn : Addr12) :
    (indexedTarget v0 nnn).toNat = (v0.toNat + nnn.toNat) % 0x1000 := by
  simp [indexedTarget]
  omega

/-- All a handler can do when it answers a next state. -/
theorem exec_cases {i : Instr} {s t : State} (h : exec i s = .next t) :
    HandlerKeeps s t ∨ ∃ f : Fault, f.byHandler ∧ t = enterFault f (s.pc - 2) s.iw s := by
  have keep : ∀ u : State, (.next u : Answer) = .next t → HandlerKeeps s u →
      HandlerKeeps s t ∨ ∃ f : Fault, f.byHandler ∧ t = enterFault f (s.pc - 2) s.iw s := by
    intro u hu hk
    cases hu
    exact .inl hk
  have fail : ∀ f : Fault, f.byHandler → raise f s = .next t →
      HandlerKeeps s t ∨ ∃ f : Fault, f.byHandler ∧ t = enterFault f (s.pc - 2) s.iw s := by
    intro f hf hr
    cases hr
    exact .inr ⟨f, hf, rfl⟩
  have store : ∀ (bytes : List Byte) (m : Memory), storeBytes (indexAddr s 0) s.mem bytes = .ok m →
      HandlerKeeps s { s with mem := m } := fun bytes m hm =>
    ⟨rfl, rfl, rfl, rfl, rfl, fun hw => storeBytes_wf hw hm, fun a ha => storeBytes_reserved hm ha,
      fun _ => .inl rfl, .inl rfl⟩
  have storeFail : ∀ (bytes : List Byte) (f : Fault), storeBytes (indexAddr s 0) s.mem bytes = .error f →
      f.byHandler := by
    intro bytes f hm
    obtain ⟨b, rfl⟩ | ⟨b, rfl⟩ := storeBytes_error_kind hm <;> trivial
  have loadFail : ∀ (n : Nat) (f : Fault), loadBytes (indexAddr s 0) s.mem n = .error f →
      f.byHandler := by
    intro n f hm
    obtain ⟨b, rfl⟩ := loadBytes_error_kind hm
    trivial
  cases i <;> simp only [exec] at h
  case jpAddr nnn =>
    have := nnn.isLt
    exact keep _ h (.of_eq rfl rfl rfl rfl rfl rfl rfl (.inr (.inl (by rw [zextAddr_toNat]; omega))))
  case jpV0 nnn =>
    exact keep _ h (.of_eq rfl rfl rfl rfl rfl rfl rfl
      (.inr (.inl (by simp only [indexedTarget_toNat]; omega))))
  case callAddr nnn =>
    unfold execCallAddr at h
    split at h
    · exact fail _ (by trivial) h
    · have := nnn.isLt
      refine keep _ h ⟨rfl, rfl, rfl, rfl, rfl, id, fun _ _ => rfl, fun j => ?_,
        .inr (.inl (by rw [zextAddr_toNat]; omega))⟩
      simp only [Vector.getElem_set]
      split
      · exact .inr rfl
      · exact .inl rfl
  case ret =>
    unfold execRet at h
    split at h
    · exact fail _ (by trivial) h
    · have := s.sp.isLt
      exact keep _ h (.of_eq rfl rfl rfl rfl rfl rfl rfl
        (.inr (.inr (.inr (.inr ⟨⟨s.sp.val - 1, by omega⟩, rfl⟩)))))
  case skp =>
    unfold execSkp at h
    split at h
    · exact fail _ (by trivial) h
    · exact keep _ h (.skipIf _ s)
  case sknp =>
    unfold execSknp at h
    split at h
    · exact fail _ (by trivial) h
    · exact keep _ h (.skipIf _ s)
  case ldVxK =>
    unfold execLdVxK at h
    split at h
    · exact keep _ h (.of_eq rfl rfl rfl rfl rfl rfl rfl (.inr (.inr (.inr (.inl rfl)))))
    · exact keep _ h (.of_eq rfl rfl rfl rfl rfl rfl rfl (.inl rfl))
  case drw =>
    unfold execDrw at h
    split at h
    · exact fail _ (loadFail _ _ (by assumption)) h
    · exact keep _ h (.of_eq rfl rfl rfl rfl rfl rfl rfl (.inl rfl))
  case ldLoad =>
    unfold execLdLoad at h
    split at h
    · exact fail _ (loadFail _ _ (by assumption)) h
    · exact keep _ h (.of_eq rfl rfl rfl rfl rfl rfl rfl (.inl rfl))
  case ldB =>
    unfold execLdB at h
    split at h
    · exact fail _ (storeFail _ _ (by assumption)) h
    · exact keep _ h (store _ _ (by assumption))
  case ldStore =>
    unfold execLdStore at h
    split at h
    · exact fail _ (storeFail _ _ (by assumption)) h
    · exact keep _ h (store _ _ (by assumption))
  case seByte => exact keep _ h (.skipIf _ s)
  case sneByte => exact keep _ h (.skipIf _ s)
  case seReg => exact keep _ h (.skipIf _ s)
  case sneReg => exact keep _ h (.skipIf _ s)
  all_goals exact keep _ h (.of_eq rfl rfl rfl rfl rfl rfl rfl (.inl rfl))

end Sys2Proof.Machine
end

