-- ==== Sys2Proof/Tests/Slice0.lean ====
section
/-!
SUPPORT. Tests. Every expected result is the spec's: the words are written out from the opcode map
(spec/30_encoding.md R105), the one-step results are the vectors of spec/95_test_vectors.md (named in
the docstrings), and the witnesses show states that meet the hypotheses of the statements.
-/

namespace Sys2Proof.Tests

open Sys2Proof Sys2Proof.Machine

/-! ### Well-formedness: what the checks refuse (R111, R346) and the canonical form of memory -/

theorem test_illegal_words_refused :
    [0x0123, 0x00E1, 0x8008, 0x800F, 0xE0A2, 0xF0FF, 0xF000].map legalWord = List.replicate 7 false := by
  decide

theorem test_image_of_3585_bytes_refused : imageFits (List.replicate 3585 0) = false := by
  rw [imageFits, List.length_replicate]
  rfl

theorem test_image_of_3584_bytes_accepted : imageFits (List.replicate 3584 0) = true := by
  rw [imageFits, List.length_replicate]
  rfl

/-- Out of order, listed twice, listing what the address reads as unlisted (0, or a font byte), and an
address that does not exist. -/
theorem test_ill_formed_memories_refused :
    [[(0x301, 1), (0x300, 1)], [(0x300, 1), (0x300, 1)], [(0x300, 0)], [(0x050, 0xF0)],
      [(0x1000, 1)]].map Memory.wf = List.replicate 5 false := by
  decide

/-! ### Decoding, every constructor, each word bit by bit from R105 -/

theorem test_decode_display_and_flow :
    [0b0000000011100000, 0b0000000011101110, 0b0001101010111100, 0b0010000000010010,
      0b1011010001100101].map (fun w => (decode w).toOption) =
    [some .cls, some .ret, some (.jpAddr 0xABC), some (.callAddr 0x012), some (.jpV0 0x465)] := by
  decide

theorem test_decode_skips :
    [0b0011101001111111, 0b0100000110000000, 0b0101110000110000, 0b1001001111000000,
      0b1110011110011110, 0b1110100010100001].map (fun w => (decode w).toOption) =
    [some (.seByte 10 0x7F), some (.sneByte 1 0x80), some (.seReg 12 3), some (.sneReg 3 12),
      some (.skp 7), some (.sknp 8)] := by
  decide

theorem test_decode_alu_logic :
    [0b0110111100010010, 0b0111001000000011, 0b1000000101010000, 0b1000001000010001,
      0b1000001000010010, 0b1000001000010011].map (fun w => (decode w).toOption) =
    [some (.ldByte 15 0x12), some (.addByte 2 0x03), some (.ldReg 1 5), some (.orReg 2 1),
      some (.andReg 2 1), some (.xorReg 2 1)] := by
  decide

theorem test_decode_alu_flagged :
    [0b1000111100010100, 0b1000111100010101, 0b1000101101000110, 0b1000001100010111,
      0b1000101101001110].map (fun w => (decode w).toOption) =
    [some (.addReg 15 1), some (.subReg 15 1), some (.shr 11 4), some (.subnReg 3 1),
      some (.shl 11 4)] := by
  decide

theorem test_decode_index_and_memory :
    [0b1010000100100011, 0b1111000100011110, 0b1111010000101001, 0b1111101000110011,
      0b1111111101010101, 0b1111110001100101].map (fun w => (decode w).toOption) =
    [some (.ldI 0x123), some (.addI 1), some (.ldF 4), some (.ldB 10), some (.ldStore 15),
      some (.ldLoad 12)] := by
  decide

theorem test_decode_random_drawing_timers :
    [0b1100100111110000, 0b1101000100101111, 0b1111000100000111, 0b1111001000001010,
      0b1111011000010101, 0b1111001100011000].map (fun w => (decode w).toOption) =
    [some (.rnd 9 0xF0), some (.drw 1 2 15), some (.ldVxDt 1), some (.ldVxK 2), some (.ldDtVx 6),
      some (.ldStVx 3)] := by
  decide

/-- 95_test_vectors.md, decode and dispatch: ignored bits, and the illegal words by their reason. -/
theorem test_decode_ignored_bits :
    [0x0120, 0x0000, 0x012E, 0xE09E, 0xE031, 0x5121].map (fun w => (decode w).toOption) =
    [some .cls, some .cls, some .ret, some (.skp 0), some (.sknp 0), some (.seReg 1 2)] := by
  decide

theorem test_decode_rejects_by_name :
    decode 0x0123 = .error .unmappedClass0 ∧ decode 0x8008 = .error .unmappedClass8 ∧
    decode 0xE0A2 = .error .unmappedClassE ∧ decode 0xF0FF = .error .unmappedClassF ∧
    decodeBytes [0x12] = .error .truncated := by
  decide

/-- Two bytes are read big-endian and the rest is kept (R76, R100). -/
theorem test_decode_bytes : decodeBytes [0x60, 0x0A, 0x12, 0x02] = .ok (.ldByte 0 0x0A, [0x12, 0x02]) := by
  decide

/-! ### One step on a small state (95_test_vectors.md Part 1 and Part 2) -/

/-- The reset state with the host offering the random byte 0. -/
def start : State := hostRnd 0 State.reset

/-- `start` with some registers written. -/
def regs (rs : List (Reg × Byte)) : State := rs.foldl (fun s r => writeV r.1 r.2 s) start

/-- The state after a step. -/
def stepped (s : State) : State :=
  match step s with
  | .next t => t
  | _ => s

/-- The state after one step of the word `w` placed at `PC`. -/
def after (w : Nat) (s : State) : State := stepped (s.withFetchWord 16 w)

/-- The registers numbered, after a step. -/
def vs (rs : List Reg) (s : State) : List Byte := rs.map (readV s)

/-- The three bytes of memory from `a`. -/
def bytes3 (a : Nat) (s : State) : List Byte := [s.mem.peek a, s.mem.peek (a + 1), s.mem.peek (a + 2)]

theorem test_jp : (after 0x1FFF start).pc = 0xFFF := by decide

theorem test_call :
    let t := after 0x2210 { start with pc := 0x204 }
    (t.stack[0], t.sp.val, t.pc) = (0x206, 1, 0x210) := by decide

theorem test_call_overflow :
    (after 0x2300 { start with sp := 16 }).fault = ⟨true, 3, 0, 0x200, 0x2300, 0⟩ := by decide

theorem test_ret :
    let t := after 0x00EE { start with sp := 1, stack := start.stack.set 0 0x206 }
    (t.sp.val, t.pc, t.stack[0]) = (0, 0x206, 0x206) := by decide

theorem test_ret_underflow :
    (after 0x012E start).fault = ⟨true, 4, 0, 0x200, 0x012E, 0⟩ ∧ (after 0x012E start).pc = 0x200 := by
  decide

theorem test_se_byte : (after 0x3005 (regs [(0, 5)])).pc = 0x204 ∧ (after 0x3006 (regs [(0, 5)])).pc = 0x202 := by
  decide

theorem test_se_byte_past_the_end : (after 0x3000 { start with pc := 0xFFE }).pc = 0x1002 := by decide

theorem test_sne_byte :
    (after 0x4311 (regs [(3, 0x10)])).pc = 0x204 ∧ (after 0x4310 (regs [(3, 0x10)])).pc = 0x202 := by decide

theorem test_se_reg : (after 0x5121 (regs [(1, 7), (2, 7)])).pc = 0x204 := by decide

theorem test_sne_reg : (after 0x9120 (regs [(1, 7), (2, 8)])).pc = 0x204 ∧ (after 0x9110 start).pc = 0x202 := by
  decide

theorem test_jp_v0 :
    (after 0xB300 (regs [(0, 0x10)])).pc = 0x310 ∧ (after 0xBFF8 (regs [(0, 0x10)])).pc = 0x008 := by decide

theorem test_ld_byte : vs [15] (after 0x6F12 start) = [0x12] := by decide

theorem test_add_byte :
    vs [0, 15] (after 0x70FF (regs [(15, 0x42)])) = [0xFF, 0x42] ∧
    vs [2, 15] (after 0x7203 (regs [(2, 0xFE)])) = [0x01, 0] := by decide

theorem test_ld_reg : vs [1, 5] (after 0x8150 (regs [(5, 0x33)])) = [0x33, 0x33] := by decide

theorem test_or : vs [0, 15] (after 0x8011 (regs [(0, 0x0F), (1, 0xF0), (15, 0x77)])) = [0xFF, 0x77] := by decide

theorem test_and : vs [0] (after 0x8012 (regs [(0, 0x3C), (1, 0x0F)])) = [0x0C] := by decide

theorem test_xor :
    vs [0] (after 0x8013 (regs [(0, 0x3C), (1, 0x0F)])) = [0x33] ∧ vs [0] (after 0x8003 (regs [(0, 0xAA)])) = [0] := by
  decide

theorem test_add_reg :
    vs [0, 15] (after 0x8014 (regs [(0, 0xFF), (1, 1)])) = [0, 1] ∧
    vs [0, 15] (after 0x8014 (regs [(0, 0x7F), (1, 0x80)])) = [0xFF, 0] ∧
    vs [0, 15] (after 0x80F4 (regs [(0, 0x10), (15, 0x05)])) = [0x15, 0] := by decide

theorem test_add_reg_into_vf : vs [15] (after 0x8F14 (regs [(15, 0xFF), (1, 1)])) = [0] := by decide

theorem test_sub :
    vs [0, 15] (after 0x8015 (regs [(0, 3), (1, 5)])) = [0xFE, 0] ∧
    vs [0, 15] (after 0x8015 (regs [(0, 7), (1, 7)])) = [0, 1] := by decide

theorem test_sub_into_vf : vs [15] (after 0x8F15 (regs [(15, 3), (1, 5)])) = [0xFE] := by decide

theorem test_shr :
    vs [0, 15] (after 0x8006 (regs [(0, 3)])) = [1, 1] ∧
    vs [0, 15] (after 0x8016 (regs [(0, 0x80), (1, 0xFF)])) = [0x40, 0] := by decide

theorem test_shr_of_vf : vs [15] (after 0x8FF6 (regs [(15, 2)])) = [1] := by decide

theorem test_subn :
    vs [0, 15] (after 0x8017 (regs [(0, 3), (1, 5)])) = [2, 1] ∧
    vs [0, 15] (after 0x8017 (regs [(0, 5), (1, 3)])) = [0xFE, 0] ∧
    vs [0, 15] (after 0x8017 (regs [(0, 7), (1, 7)])) = [0, 1] := by decide

theorem test_shl :
    vs [0, 15] (after 0x800E (regs [(0, 0x81)])) = [2, 1] ∧
    vs [0, 15] (after 0x800E (regs [(0, 0x7F)])) = [0xFE, 0] := by decide

theorem test_shl_of_vf : vs [15] (after 0x8FFE (regs [(15, 0x80)])) = [0] := by decide

theorem test_ld_i : (after 0xA300 start).i = 0x300 := by decide

theorem test_add_i :
    (after 0xF11E { regs [(1, 2)] with i := 0x0FFF }).i = 0x1001 ∧
    (after 0xF11E { regs [(1, 2)] with i := 0xFFFF }).i = 0x0001 := by decide

theorem test_ld_f : (after 0xF429 (regs [(4, 0x1A)])).i = 0x082 ∧ (after 0xF029 (regs [(0, 0xFF)])).i = 0x09B := by
  decide

theorem test_bcd :
    bytes3 0x300 (after 0xF033 { regs [(0, 158)] with i := 0x300 }) = [1, 5, 8] ∧
    bytes3 0x300 (after 0xF033 { regs [(0, 255)] with i := 0x300 }) = [2, 5, 5] := by decide

theorem test_bcd_faults :
    (after 0xF033 { regs [(0, 1)] with i := 0xFFE }).fault = ⟨true, 1, 2, 0x200, 0xF033, 0x1000⟩ ∧
    (after 0xF033 { regs [(0, 1)] with i := 0x1FF }).fault = ⟨true, 5, 0, 0x200, 0xF033, 0x1FF⟩ := by decide

theorem test_store :
    let t := after 0xF255 { regs [(0, 1), (1, 2), (2, 3)] with i := 0x300 }
    bytes3 0x300 t = [1, 2, 3] ∧ t.i = 0x300 := by decide

theorem test_store_faults :
    let t := after 0xF255 { regs [(0, 1), (1, 2), (2, 3)] with i := 0xFFE }
    t.fault = ⟨true, 1, 2, 0x200, 0xF255, 0x1000⟩ ∧ t.mem.peek 0xFFE = 0 ∧
    (after 0xFF55 { start with i := 0x1F0 }).fault = ⟨true, 5, 0, 0x200, 0xFF55, 0x1F0⟩ := by decide

theorem test_load :
    let t := after 0xFF65 { start with i := 0x300, mem := [(0x30F, 0xAB)] }
    vs [0, 14, 15] t = [0, 0, 0xAB] ∧ t.i = 0x300 ∧
    vs [0] (after 0xF065 { start with i := 0x050 }) = [0xF0] := by decide

theorem test_load_fault :
    (after 0xF165 { start with i := 0xFFF }).fault = ⟨true, 1, 1, 0x200, 0xF165, 0x1000⟩ := by decide

theorem test_rnd :
    vs [3] (after 0xC30F (hostRnd 0xB7 start)) = [0x07] ∧ vs [3] (after 0xC3FF (hostRnd 0x5A start)) = [0x5A] := by
  decide

/-- Glyph 0 at (0, 0): its 14 cells (95_test_vectors.md P3). -/
theorem test_draw_glyph :
    let t := after 0xD225 { start with i := 0x050 }
    (t.fb.toList.map (fun row => row.toList.count true)).sum = 14 ∧ readV t 15 = 0 ∧
    (t.fb[1].toList.take 4, t.fb[4].toList.take 5) =
      ([true, false, false, true], [true, true, true, true, false]) := by decide

/-- Placement wraps, columns 64 and up are clipped, an on pixel on an on cell erases it and sets VF. -/
theorem test_draw_edges_and_collision :
    (after 0xD011 { regs [(0, 70), (1, 33)] with i := 0x300, mem := [(0x300, 0x80)] }).fb[1][6] = true ∧
    (after 0xD011 { regs [(0, 60)] with i := 0x300, mem := [(0x300, 0xFF)] }).fb[0].toList.count true = 4 ∧
    (let t := after 0xD011 { start with
        i := 0x300, mem := [(0x300, 0xC0)], fb := start.fb.set 0 (start.fb[0].set 0 true) }
     (t.fb[0][0], t.fb[0][1], readV t 15) = (false, true, 1)) := by decide

theorem test_skp :
    let key5 := hostKeys (start.key.set 5 true) (regs [(1, 5)])
    (after 0xE19E key5).pc = 0x204 ∧ (after 0xE19E (regs [(1, 5)])).pc = 0x202 ∧
    (after 0xE19E (regs [(1, 16)])).fault = ⟨true, 6, 0, 0x200, 0xE19E, 0x10⟩ := by decide

theorem test_sknp :
    let key5 := hostKeys (start.key.set 5 true) (regs [(1, 5)])
    (after 0xE1A1 key5).pc = 0x202 ∧ (after 0xE1A1 (regs [(1, 5)])).pc = 0x204 := by decide

theorem test_key_wait :
    (after 0xF20A { start with pc := 0x206 }).pc = 0x206 ∧
    vs [2] (after 0xF20A (hostKeys ((start.key.set 3 true).set 15 true) start)) = [3] ∧
    vs [2] (after 0xF20A (hostKeys (start.key.set 15 true) start)) = [15] := by decide

theorem test_read_dt :
    let t := after 0xF107 { start with dt := 4 }
    vs [1] t = [4] ∧ t.dt = 3 := by decide

theorem test_set_dt : (after 0xF015 (regs [(0, 5)])).dt = 4 ∧ (after 0xF015 (regs [(0, 0)])).dt = 0 := by decide

theorem test_set_st : (after 0xF318 (regs [(3, 0x10)])).st = 0x0F ∧ (after 0xF118 (regs [(1, 1)])).st = 0 := by decide

theorem test_cls :
    let s := { regs [(15, 1)] with fb := start.fb.set 31 (start.fb[31].set 63 true) }
    (after 0x00E0 s).fb[31][63] = false ∧ vs [15] (after 0x00E0 s) = [1] := by decide

theorem test_fetch_fault : (stepped { start with pc := 0xFFF }).fault = ⟨true, 1, 0, 0xFFF, 0, 0xFFF⟩ := by decide

theorem test_fetch_of_the_last_word : vs [0] (after 0x600A { start with pc := 0xFFE }) = [10] := by decide

theorem test_decode_fault : (after 0x0123 start).fault = ⟨true, 2, 0, 0x200, 0x0123, 0⟩ := by decide

theorem test_table_word : decodeTableWord 16 0x8014 = some (.addReg 0 1) := by decide

/-! ### Witnesses: states that meet the hypotheses of the statements, at the ends of their ranges -/

/-- The last word of memory, 0xFFE, holding `LD V0, 0x0A`. -/
def lastWord : State := { start with pc := 0xFFE }.withFetchWord 16 0x600A

theorem test_meets_step_completes :
    lastWord.fault.active = false ∧ lastWord.pc.toNat + 1 < 0x1000 ∧
    decode (lastWord.mem.peek lastWord.pc.toNat ++ lastWord.mem.peek (lastWord.pc.toNat + 1)) =
      .ok (.ldByte 0 0x0A) ∧
    ∃ u, exec (.ldByte 0 0x0A) { lastWord with iw := 0x600A, pc := lastWord.pc + 2 } = .next u ∧
      u.fault.active = false :=
  ⟨rfl, by decide, by decide, _, rfl, rfl⟩

theorem test_meets_step_faults :
    let s := start.withFetchWord 16 0x00EE
    s.fault.active = false ∧ s.pc.toNat + 1 < 0x1000 ∧
    decode (s.mem.peek s.pc.toNat ++ s.mem.peek (s.pc.toNat + 1)) = .ok .ret ∧
    ∃ u, exec .ret { s with iw := 0x00EE, pc := s.pc + 2 } = .next u ∧ u.fault.active = true :=
  ⟨rfl, by decide, by decide, _, rfl, rfl⟩

/-- A halted block. -/
def halted : State := { start with fault := ⟨true, 2, 0, 0x200, 0x0123, 0⟩, dt := 9 }

theorem test_meets_halted : halted.fault.active = true ∧ step halted = .next halted := ⟨rfl, rfl⟩

theorem test_meets_fetch_beyond : start.fault.active = false ∧ 0xFFE < ({ start with pc := 0xFFF }).pc.toNat := by
  decide

theorem test_meets_illegal_word :
    let s := { start with pc := 0xFFE }.withFetchWord 16 0x0123
    s.fault.active = false ∧ s.pc.toNat + 1 < 0x1000 ∧
    legalWord (s.mem.peek s.pc.toNat ++ s.mem.peek (s.pc.toNat + 1)) = false := by decide

/-- A faulting step whose word was fetched, and one whose word was not. -/
theorem test_meets_faulting_steps :
    (∃ t, step (start.withFetchWord 16 0x00EE) = .next t ∧ t.fault.active = true ∧ t.fault.word = 0x00EE) ∧
    ∃ t, step { start with pc := 0xFFF } = .next t ∧ t.fault.active = true ∧ t.fault.word = 0 :=
  ⟨⟨_, rfl, by decide, by decide⟩, _, rfl, by decide, by decide⟩

theorem test_meets_completed_step :
    lastWord.fault.active = false ∧ ∃ t, step lastWord = .next t ∧ t.fault.active = false ∧ t.iw = 0x600A :=
  ⟨rfl, _, rfl, by decide, by decide⟩

theorem test_meets_set_timer_step :
    fetch16 0x200 (start.withFetchWord 16 0xF015).mem = .ok 0xF015 ∧ decode 0xF015 = .ok (.ldDtVx 0) ∧
    fetch16 0x200 (start.withFetchWord 16 0xF318).mem = .ok 0xF318 ∧ decode 0xF318 = .ok (.ldStVx 3) := by
  decide

/-- A block store that ends at the last byte of memory. -/
def storing : State := { regs [(0, 0x12), (1, 0x34)] with i := 0xFFE }

/-- LD [I] up to the last byte of memory: a fetch of the two stored bytes, and one whose first byte lies
below them. -/
theorem test_meets_stored_bytes_are_fetched :
    storing.mem.wf = true ∧ ∃ t, exec (.ldStore 1) storing = .next t ∧ t.fault.active = false ∧
      (∀ k : Reg, k ≤ 1 → [(0x12 : Byte), 0x34][k.val]? = some (readV storing k)) ∧
      fetch16 0xFFE t.mem = .ok 0x1234 ∧ fetch16 0xFFD t.mem = .ok 0x0012 :=
  ⟨rfl, _, rfl, rfl, by decide, by decide, by decide⟩

/-- LD B of 158 at 0x300, and a later state at the last stored digit, whose word ends in an older byte. -/
theorem test_meets_stored_digits_are_fetched :
    ∃ t, exec (.ldB 0) { regs [(0, 158)] with i := 0x300 } = .next t ∧ t.fault.active = false ∧
      (let r := { start with mem := t.mem, pc := 0x302 }
       r.fault.active = false ∧ r.pc.toNat + 1 < 0x1000 ∧ fetch16 r.pc.toNat r.mem = .ok 0x0800) :=
  ⟨_, rfl, rfl, by decide⟩

theorem test_meets_call_depths :
    (∃ t, exec (.callAddr 0x210) { start with sp := 0 } = .next t ∧ t.fault.active = false) ∧
    (∃ t, exec (.callAddr 0x210) { start with sp := 15 } = .next t ∧ t.fault.active = false) ∧
    ∃ t, exec (.callAddr 0x210) { start with sp := 16 } = .next t ∧ t.fault.active = true :=
  ⟨⟨_, rfl, rfl⟩, ⟨_, rfl, rfl⟩, _, rfl, rfl⟩

theorem test_meets_return_depths :
    (∃ t, exec .ret { start with sp := 16 } = .next t ∧ t.fault.active = false) ∧
    (∃ t, exec .ret { start with sp := 1 } = .next t ∧ t.fault.active = false) ∧
    ∃ t, exec .ret { start with sp := 0 } = .next t ∧ t.fault.active = true :=
  ⟨⟨_, rfl, rfl⟩, ⟨_, rfl, rfl⟩, _, rfl, rfl⟩

/-- A state whose stack is the one a CALL at depth 15 left: that state itself. -/
theorem test_meets_return_undoes_call :
    ({ start with sp := 15 }).sp.val < 16 ∧
    ∃ t r : State, exec (.callAddr 0x210) { start with sp := 15 } = .next t ∧ r.sp = t.sp ∧ r.stack = t.stack :=
  ⟨by decide, _, _, rfl, rfl, rfl⟩

/-- LD B at both ends of the memory it may write, LD [I] likewise, LD Vx, [I] at the end of memory. -/
theorem test_meets_block_ranges :
    start.mem.wf = true ∧
    (let s := { start with i := 0x200 }; 0x200 ≤ indexAddr s 0 ∧ indexAddr s 15 ≤ 0xFFF) ∧
    (let s := { start with i := 0xFFD }; 0x200 ≤ indexAddr s 0 ∧ indexAddr s 2 ≤ 0xFFF) ∧
    (let s := { start with i := 0xFF0 }; 0x200 ≤ indexAddr s 0 ∧ indexAddr s 15 ≤ 0xFFF) := by decide

theorem test_meets_store_then_load :
    storing.mem.wf = true ∧ ∃ t r : State, exec (.ldStore 1) storing = .next t ∧ t.fault.active = false ∧
      r.mem = t.mem ∧ r.i = t.i ∧ readV r 0 = 0 :=
  ⟨rfl, _, { start with mem := [(0xFFE, 0x12), (0xFFF, 0x34)], i := 0xFFE }, rfl, rfl, by decide, rfl, rfl⟩

/-- The first bad address of a store: 0x1000 at offset 2 of LD B, and 0x1FF at offset 0. -/
theorem test_meets_bad_stores :
    (let s := { start with i := 0xFFE }
     (∀ j < 2, 0x200 ≤ indexAddr s j ∧ indexAddr s j ≤ 0xFFF) ∧ 0xFFF < indexAddr s 2) ∧
    (let s := { start with i := 0x1FF }
     (∀ j < 0, 0x200 ≤ indexAddr s j ∧ indexAddr s j ≤ 0xFFF) ∧ indexAddr s 0 < 0x200) := by decide

/-- The first bad address of a load or a draw of two bytes: 0x1000 at offset 1. -/
theorem test_meets_bad_loads :
    let s := { start with i := 0xFFF }
    (1 ≤ (1 : Reg).val) ∧ (1 < (2 : Nibble).toNat) ∧ (∀ j < 1, indexAddr s j ≤ 0xFFF) ∧ 0xFFF < indexAddr s 1 := by
  decide

theorem test_meets_reserved_address : ∃ t, step lastWord = .next t ∧ t.mem.peek 0x1FF = lastWord.mem.peek 0x1FF :=
  ⟨_, rfl, by decide⟩

theorem test_meets_canonical_memories :
    Memory.wf [(0x200, 1), (0xFFF, 2)] = true ∧ ∀ a, Memory.peek [(0x200, 1), (0xFFF, 2)] a =
      Memory.peek [(0x200, 1), (0xFFF, 2)] a :=
  ⟨by decide, fun _ => rfl⟩

/-- For each piece of state an instruction that changes it. -/
theorem test_meets_writers :
    (∃ t, exec (.jpAddr 0) start = .next t ∧ t.pc ≠ start.pc) ∧
    (∃ t, exec (.ldI 1) start = .next t ∧ t.i ≠ start.i) ∧
    (∃ t, exec (.callAddr 0) start = .next t ∧ t.sp ≠ start.sp ∧ t.stack ≠ start.stack) ∧
    (∃ t, exec (.ldDtVx 0) (regs [(0, 1)]) = .next t ∧ t.dt ≠ 0) ∧
    (∃ t, exec (.ldStVx 0) (regs [(0, 1)]) = .next t ∧ t.st ≠ 0) ∧
    (∃ t, exec (.drw 0 0 1) { start with i := 0x050 } = .next t ∧ t.fb ≠ start.fb) ∧
    ∃ t, exec (.ldStore 1) storing = .next t ∧ t.mem ≠ storing.mem :=
  ⟨⟨_, rfl, by decide⟩, ⟨_, rfl, by decide⟩, ⟨_, rfl, by decide, by decide⟩, ⟨_, rfl, by decide⟩,
    ⟨_, rfl, by decide⟩, ⟨_, rfl, by decide⟩, _, rfl, by decide⟩

theorem test_meets_register_change :
    ∃ t, exec (.ldLoad 15) { start with i := 0x050 } = .next t ∧ readV t 15 ≠ readV start 15 :=
  ⟨_, rfl, by decide⟩

/-- Each fault a handler raises. -/
theorem test_meets_handler_faults :
    (∃ t, exec (.ldLoad 1) { start with i := 0xFFF } = .next t ∧ t.fault.code = 1 ∧ t.fault.kind = 1) ∧
    (∃ t, exec (.drw 0 0 2) { start with i := 0xFFF } = .next t ∧ t.fault.code = 1 ∧ t.fault.kind = 1) ∧
    (∃ t, exec (.ldB 0) { start with i := 0xFFE } = .next t ∧ t.fault.code = 1 ∧ t.fault.kind = 2) ∧
    (∃ t, exec (.callAddr 0) { start with sp := 16 } = .next t ∧ t.fault.code = 3) ∧
    (∃ t, exec .ret start = .next t ∧ t.fault.code = 4) ∧
    (∃ t, exec (.ldStore 0) start = .next t ∧ t.fault.code = 5) ∧
    ∃ t, exec (.sknp 0) (regs [(0, 16)]) = .next t ∧ t.fault.code = 6 :=
  ⟨⟨_, rfl, by decide, by decide⟩, ⟨_, rfl, by decide, by decide⟩, ⟨_, rfl, by decide, by decide⟩,
    ⟨_, rfl, by decide⟩, ⟨_, rfl, by decide⟩, ⟨_, rfl, by decide⟩, _, rfl, by decide⟩

/-- An instruction that is none of SKP, SKNP, LD Vx, K, DRW, RND, with a next state. -/
theorem test_meets_input_independence :
    (∃ t, exec .cls start = .next t) ∧
    (∀ x, Instr.cls ≠ .skp x ∧ Instr.cls ≠ .sknp x ∧ Instr.cls ≠ .ldVxK x) ∧
    (∀ x y n, Instr.cls ≠ .drw x y n) ∧ ∀ x m, Instr.cls ≠ .rnd x m :=
  ⟨⟨_, rfl⟩, by simp, by simp, by simp⟩

/-- Sprites that end at the last byte of memory, and one of no rows beyond it. -/
theorem test_meets_draw :
    (indexAddr { start with i := 0xFF1 } (15 : Nibble).toNat ≤ 0x1000) ∧
    ∃ t, exec (.drw 0 0 0) { start with i := 0xFFFF } = .next t ∧ t.fault.active = false :=
  ⟨by decide, _, rfl, rfl⟩

/-- Glyph 0 drawn twice from the state before the first draw. -/
theorem test_meets_drawing_twice :
    ∃ t u, exec (.drw 0 0 5) { start with i := 0x050 } = .next t ∧ exec (.drw 0 0 5) t = .next u ∧
      t.mem = start.mem ∧ t.i = 0x050 ∧ readV t 0 = readV start 0 ∧ u.fb = start.fb ∧ readV u 15 = 1 :=
  ⟨_, _, rfl, rfl, rfl, rfl, by decide, by decide, by decide⟩

theorem test_meets_key_ranges :
    (readV (regs [(0, 15)]) 0).toNat < 16 ∧ 15 < (readV (regs [(0, 16)]) 0).toNat := by decide

/-- No key pressed; only the last key pressed. -/
theorem test_meets_key_wait :
    (∀ k : Key, start.key[k.val] = false) ∧
    (let s := hostKeys (start.key.set 15 true) start
     s.key[(15 : Key).val] = true ∧ ∀ j : Key, j < 15 → s.key[j.val] = false) := by decide

theorem test_meets_waiting_step :
    let s := start.withFetchWord 16 0xF20A
    s.fault.active = false ∧ fetch16 s.pc.toNat s.mem = .ok 0xF20A ∧ decode 0xF20A = .ok (.ldVxK 2) ∧
    ∀ k : Key, s.key[k.val] = false := by decide

/-- A state with the invariant, other than the reset state, and a step of it: a word in the last two
bytes of memory, a full stack of the highest return address, and a latched fault's absence. -/
theorem test_meets_invariant :
    let s := { lastWord with sp := 16, stack := Vector.replicate 16 0x1000 }
    Inv s ∧ ∃ t, step s = .next t :=
  ⟨⟨by decide, fun a ha => Memory.peek_pokes_other _ _ (.inl (by exact Nat.lt_trans ha (by decide))), by decide, by decide,
    ⟨fun _ => rfl, fun h => by cases h⟩⟩, _, rfl⟩

/-- The state after a load of `LD V0, 0x0A`, with every key pressed. -/
def loaded : State :=
  hostKeys (Vector.replicate 16 true)
    { State.reset with mem := State.reset.mem.pokes Config.progBase [0x60, 0x0A] }

/-- A session: reset, a load, keys, a step. -/
theorem test_meets_session : Session .afterLoad loaded ∧ Session .running (stepped loaded) :=
  ⟨.keys _ (.load (image := [0x60, 0x0A]) .start rfl), .step (s := loaded) (.keys _ (.load (image := [0x60, 0x0A]) .start rfl)) rfl⟩

/-- Reset of a faulted block, and a load that a faulted block would still be given. -/
theorem test_meets_reset_of_a_faulted_state :
    halted.fault.active = true ∧ (hostReset halted).dt = 0 ∧ (hostReset halted).fault.active = false ∧
    ∃ t, hostLoad [0x60, 0x0A] halted = some t :=
  ⟨rfl, rfl, rfl, _, rfl⟩

/-- P0 of 95_test_vectors.md parked: JP 0x202 at 0x202. -/
theorem test_meets_parked : Parked ({ start with pc := 0x202 }.withFetchWord 16 0x1202) :=
  ⟨rfl, 0x202, by decide, by decide⟩

theorem test_meets_load_lengths :
    start.mem.wf = true ∧ (List.replicate 3584 (0 : Byte)).length ≤ 3584 ∧
    3584 < (List.replicate 3585 (0 : Byte)).length := by
  rw [List.length_replicate, List.length_replicate]
  decide

end Sys2Proof.Tests
end

namespace Sys2Proof.Machine

/-! ### The invariant under a step -/

/-- Latching a legal record keeps the invariant: no other clause speaks of `FAULT`. -/
theorem Inv.latch {s : State} {f : FaultStatus} (hs : Inv s) (hf : FaultLegal f) :
    Inv { s with fault := f } :=
  ⟨hs.memCanonical, hs.reservedIntact, hs.stackBound, hs.pcBound, hf⟩

/-- A word is fetched only where both its bytes exist (R80). -/
theorem fetch16_ok_bound {a : Nat} {m : Memory} {w : Word} (h : fetch16 a m = .ok w) : a ≤ 0xFFE := by
  obtain ⟨ha, -⟩ | ⟨-, he⟩ := fetch16_cases a m
  · simp only [Config.memSize] at ha
    omega
  · simp [he] at h

/-- The record a handler leaves is the one from before or a new legal one. -/
theorem exec_faultLegal {i : Instr} {s t : State} (h : exec i s = .next t) (hs : FaultLegal s.fault) :
    FaultLegal t.fault := by
  obtain hk | ⟨f, -, rfl⟩ := exec_cases h
  · rw [hk.fault]
    exact hs
  · exact faultRecord_legal f _ _

/-- A handler that raised no fault, run on the working copy of a fetch inside memory, keeps the
invariant. `PC` is at most `pc0 + 4`, one skip past the last fetchable word (R35). -/
theorem HandlerKeeps.inv {s u : State} {w : Word} (hk : HandlerKeeps (advance w s) u) (hs : Inv s)
    (hpc : s.pc.toNat ≤ 0xFFE) : Inv u where
  memCanonical := hk.memCanonical hs.memCanonical
  reservedIntact a ha := (hk.reserved a ha).trans (hs.reservedIntact a ha)
  stackBound j := by
    obtain h | h := hk.stack j <;> rw [h]
    · exact hs.stackBound j
    · rw [advance_pc]
      bv_omega
  pcBound := by
    have := hk.pc
    simp only [advance_pc, advance_stack] at this
    obtain h | h | h | h | ⟨j, h⟩ := this
    · bv_omega
    · omega
    · bv_omega
    · bv_omega
    · have := hs.stackBound j
      rw [h]
      omega
  faultLegal := by
    rw [hk.fault]
    exact hs.faultLegal

/-- The end of a completed step touches the timers and the random offer, of which the invariant says
nothing. -/
theorem Inv.finish {s : State} (hs : Inv s) : Inv (finish s) :=
  ⟨hs.memCanonical, hs.reservedIntact, hs.stackBound, hs.pcBound, hs.faultLegal⟩

/-- Settles O55, by the five ways a step answers a next state. -/
theorem stepKeepsTheInvariant : Obligations.StepKeepsTheInvariant := by
  intro s t hs h
  obtain ⟨-, rfl⟩ | ⟨-, f, -, rfl⟩ | ⟨-, w, r, -, -, rfl⟩ | ⟨-, w, i, u, -, -, hu, -, rfl⟩ |
    ⟨-, w, i, u, hw, -, hu, hok, rfl⟩ := step_cases h
  · exact hs
  · exact hs.latch (faultRecord_legal _ _ _)
  · exact hs.latch (faultRecord_legal _ _ _)
  · exact hs.latch (exec_faultLegal hu hs.faultLegal)
  · obtain hk | ⟨f, -, rfl⟩ := exec_cases hu
    · exact (hk.inv hs (fetch16_ok_bound hw)).finish
    · cases hok

/-! ### The handlers that can fault or wait, as equivalences -/

/-- RET underflows at depth 0, else it pops into `PC` (R161). -/
theorem exec_ret_iff {s t : State} :
    exec .ret s = .next t ↔
      (s.sp.val = 0 ∧ t = enterFault .stackUnderflow (s.pc - 2) s.iw s) ∨
      ∃ _ : s.sp.val ≠ 0,
        t = { s with sp := ⟨s.sp.val - 1, by omega⟩, pc := s.stack[s.sp.val - 1] } := by
  simp only [exec, execRet]
  constructor
  · intro h
    split at h
    · exact .inl ⟨‹_›, by cases h; rfl⟩
    · exact .inr ⟨‹_›, by cases h; rfl⟩
  · rintro (⟨h, rfl⟩ | ⟨h, rfl⟩)
    · exact dif_pos h
    · exact dif_neg h

/-- CALL overflows at depth 16, else it pushes `PC` and jumps (R162). -/
theorem exec_callAddr_iff {nnn : Addr12} {s t : State} :
    exec (.callAddr nnn) s = .next t ↔
      (s.sp.val = 16 ∧ t = enterFault .stackOverflow (s.pc - 2) s.iw s) ∨
      ∃ _ : s.sp.val ≠ 16,
        t = { s with stack := s.stack.set s.sp.val s.pc, sp := ⟨s.sp.val + 1, by omega⟩,
                     pc := zextAddr nnn } := by
  simp only [exec, execCallAddr]
  constructor
  · intro h
    split at h
    · exact .inl ⟨‹_›, by cases h; rfl⟩
    · exact .inr ⟨‹_›, by cases h; rfl⟩
  · rintro (⟨h, rfl⟩ | ⟨h, rfl⟩)
    · exact dif_pos h
    · exact dif_neg h

/-- SKP faults if the register names no key, else it skips if that key is pressed (R250). -/
theorem exec_skp_iff {x : Reg} {s t : State} :
    exec (.skp x) s = .next t ↔
      (keyNumber (readV s x) = none ∧ t = enterFault (.keyRange (readV s x)) (s.pc - 2) s.iw s) ∨
      ∃ k, keyNumber (readV s x) = some k ∧ t = skipIf (pressed s k) s := by
  simp only [exec, execSkp]
  split <;> simp [*, raise, eq_comm]

/-- SKNP faults if the register names no key, else it skips unless that key is pressed (R251). -/
theorem exec_sknp_iff {x : Reg} {s t : State} :
    exec (.sknp x) s = .next t ↔
      (keyNumber (readV s x) = none ∧ t = enterFault (.keyRange (readV s x)) (s.pc - 2) s.iw s) ∨
      ∃ k, keyNumber (readV s x) = some k ∧ t = skipIf (!pressed s k) s := by
  simp only [exec, execSknp]
  split <;> simp [*, raise, eq_comm]

/-- LD Vx, K goes back to its own word until a key is pressed, then takes the lowest (R252). -/
theorem exec_ldVxK_iff {x : Reg} {s t : State} :
    exec (.ldVxK x) s = .next t ↔
      (lowestPressed s = none ∧ t = { s with pc := s.pc - 2 }) ∨
      ∃ k, lowestPressed s = some k ∧ t = writeV x (BitVec.ofNat 8 k.val) s := by
  simp only [exec, execLdVxK]
  split <;> simp [*, eq_comm]

/-- DRW faults if a sprite byte does not exist, else it runs the sprite engine and sets VF (R232). -/
theorem exec_drw_iff {x y : Reg} {n : Nibble} {s t : State} :
    exec (.drw x y n) s = .next t ↔
      (∃ f, loadBytes (indexAddr s 0) s.mem n.toNat = .error f ∧
        t = enterFault f (s.pc - 2) s.iw s) ∨
      ∃ rows c, loadBytes (indexAddr s 0) s.mem n.toNat = .ok rows ∧
        c = drawRows (startRow (readV s y)) (startColumn (readV s x)) rows (s.fb, false) ∧
        t = writeV flagReg (flagByte c.2) { s with fb := c.1 } := by
  simp only [exec, execDrw]
  split <;> simp [*, raise, eq_comm]

/-- LD Vx, [I] faults if a byte does not exist, else it fills the registers from 0 up (R205). -/
theorem exec_ldLoad_iff {x : Reg} {s t : State} :
    exec (.ldLoad x) s = .next t ↔
      (∃ f, loadBytes (indexAddr s 0) s.mem (x.val + 1) = .error f ∧
        t = enterFault f (s.pc - 2) s.iw s) ∨
      ∃ bytes, loadBytes (indexAddr s 0) s.mem (x.val + 1) = .ok bytes ∧
        t = { s with v := fillV 0 bytes s.v } := by
  simp only [exec, execLdLoad]
  split <;> simp [*, raise, eq_comm]

/-- LD B faults if a byte may not be written, else it stores the digits (R203). -/
theorem exec_ldB_iff {x : Reg} {s t : State} :
    exec (.ldB x) s = .next t ↔
      (∃ f, storeBytes (indexAddr s 0) s.mem (bcdDigits (readV s x)) = .error f ∧
        t = enterFault f (s.pc - 2) s.iw s) ∨
      ∃ m, storeBytes (indexAddr s 0) s.mem (bcdDigits (readV s x)) = .ok m ∧
        t = { s with mem := m } := by
  simp only [exec, execLdB]
  split <;> simp [*, raise, eq_comm]

/-- LD [I], Vx faults if a byte may not be written, else it stores the registers (R204). -/
theorem exec_ldStore_iff {x : Reg} {s t : State} :
    exec (.ldStore x) s = .next t ↔
      (∃ f, storeBytes (indexAddr s 0) s.mem (blockV s x) = .error f ∧
        t = enterFault f (s.pc - 2) s.iw s) ∨
      ∃ m, storeBytes (indexAddr s 0) s.mem (blockV s x) = .ok m ∧ t = { s with mem := m } := by
  simp only [exec, execLdStore]
  split <;> simp [*, raise, eq_comm]

/-! ### What each instruction may write -/

/-- `s` with the pieces of state that the rules let the instruction write taken from `t`: the writers
of `PC`, `I`, `SP` and the stack, the timers, the framebuffer and memory (R35 to R40, R75), and `V` for
the instructions with an entry in the "writes" column of R33. -/
def writtenBy (i : Instr) (s t : State) : State :=
  match i with
  | .jpAddr _ | .jpV0 _ | .seByte _ _ | .sneByte _ _ | .seReg _ _ | .sneReg _ _ | .skp _ | .sknp _ =>
    { s with pc := t.pc }
  | .ret => { s with pc := t.pc, sp := t.sp }
  | .callAddr _ => { s with pc := t.pc, sp := t.sp, stack := t.stack }
  | .ldByte _ _ | .addByte _ _ | .ldReg _ _ | .orReg _ _ | .andReg _ _ | .xorReg _ _ | .addReg _ _
  | .subReg _ _ | .shr _ _ | .subnReg _ _ | .shl _ _ | .rnd _ _ | .ldVxDt _ | .ldLoad _ =>
    { s with v := t.v }
  | .ldVxK _ => { s with pc := t.pc, v := t.v }
  | .cls => { s with fb := t.fb }
  | .drw _ _ _ => { s with fb := t.fb, v := t.v }
  | .ldI _ | .addI _ | .ldF _ => { s with i := t.i }
  | .ldDtVx _ => { s with dt := t.dt }
  | .ldStVx _ => { s with st := t.st }
  | .ldB _ | .ldStore _ => { s with mem := t.mem }

/-- The frame of every handler: beside what it may write, only `FAULT` can change. -/
theorem exec_frame {i : Instr} {s t : State} (h : exec i s = .next t) :
    t = { writtenBy i s t with fault := t.fault } := by
  cases i
  case ret => obtain ⟨-, rfl⟩ | ⟨-, rfl⟩ := exec_ret_iff.mp h <;> rfl
  case callAddr => obtain ⟨-, rfl⟩ | ⟨-, rfl⟩ := exec_callAddr_iff.mp h <;> rfl
  case skp => obtain ⟨-, rfl⟩ | ⟨_, -, rfl⟩ := exec_skp_iff.mp h <;> rfl
  case sknp => obtain ⟨-, rfl⟩ | ⟨_, -, rfl⟩ := exec_sknp_iff.mp h <;> rfl
  case ldVxK => obtain ⟨-, rfl⟩ | ⟨_, -, rfl⟩ := exec_ldVxK_iff.mp h <;> rfl
  case drw => obtain ⟨_, -, rfl⟩ | ⟨_, _, -, -, rfl⟩ := exec_drw_iff.mp h <;> rfl
  case ldLoad => obtain ⟨_, -, rfl⟩ | ⟨_, -, rfl⟩ := exec_ldLoad_iff.mp h <;> rfl
  case ldB => obtain ⟨_, -, rfl⟩ | ⟨_, -, rfl⟩ := exec_ldB_iff.mp h <;> rfl
  case ldStore => obtain ⟨_, -, rfl⟩ | ⟨_, -, rfl⟩ := exec_ldStore_iff.mp h <;> rfl
  all_goals cases h; rfl

section Writers

variable {i : Instr} {s t : State} (h : exec i s = .next t)
include h

/-- The writers of `PC` beside the engine's advance (R35). -/
theorem exec_pc_writers : t.pc ≠ s.pc →
    (∃ n, i = .jpAddr n ∨ i = .callAddr n ∨ i = .jpV0 n) ∨ i = .ret ∨
      (∃ x, i = .skp x ∨ i = .sknp x ∨ i = .ldVxK x) ∨
      (∃ x b, i = .seByte x b ∨ i = .sneByte x b) ∨ ∃ x y, i = .seReg x y ∨ i = .sneReg x y := by
  rw [exec_frame h]
  cases i <;> simp [writtenBy]

/-- The writers of `I` (R36). -/
theorem exec_i_writers : t.i ≠ s.i → (∃ n, i = .ldI n) ∨ ∃ x, i = .addI x ∨ i = .ldF x := by
  rw [exec_frame h]
  cases i <;> simp [writtenBy]

/-- The writers of `SP` (R37, R38). -/
theorem exec_sp_writers : t.sp ≠ s.sp → (∃ n, i = .callAddr n) ∨ i = .ret := by
  rw [exec_frame h]
  cases i <;> simp [writtenBy]

/-- The writer of the stack slots: RET leaves them (R38). -/
theorem exec_stack_writers : t.stack ≠ s.stack → ∃ n, i = .callAddr n := by
  rw [exec_frame h]
  cases i <;> simp [writtenBy]

/-- The writer of `DT` beside the decay (R39). -/
theorem exec_dt_writers : t.dt ≠ s.dt → ∃ x, i = .ldDtVx x := by
  rw [exec_frame h]
  cases i <;> simp [writtenBy]

/-- The writer of `ST` beside the decay (R39). -/
theorem exec_st_writers : t.st ≠ s.st → ∃ x, i = .ldStVx x := by
  rw [exec_frame h]
  cases i <;> simp [writtenBy]

/-- The writers of the framebuffer (R40). -/
theorem exec_fb_writers : t.fb ≠ s.fb → i = .cls ∨ ∃ x y n, i = .drw x y n := by
  rw [exec_frame h]
  cases i <;> simp [writtenBy]

/-- The writers of memory (R75). -/
theorem exec_mem_writers : t.mem ≠ s.mem → ∃ x, i = .ldB x ∨ i = .ldStore x := by
  rw [exec_frame h]
  cases i <;> simp [writtenBy]

/-- The pieces no handler writes: `IW` is the engine's, the keys and the random offer are the host's
(R41, R42, R220). -/
theorem exec_keeps_inputs : t.iw = s.iw ∧ t.key = s.key ∧ t.rnd = s.rnd ∧ t.rndSeq = s.rndSeq := by
  obtain hk | ⟨f, -, rfl⟩ := exec_cases h
  · exact ⟨hk.iw, hk.key, hk.rnd, hk.rndSeq⟩
  · exact ⟨rfl, rfl, rfl, rfl⟩

end Writers

/-- Settles O38, one lemma for each piece of state, all from the frame of the handlers. -/
theorem eachPieceOfStateHasItsWriters : Obligations.EachPieceOfStateHasItsWriters := fun _ _ _ h =>
  ⟨exec_pc_writers h, exec_i_writers h, exec_sp_writers h, exec_stack_writers h, exec_dt_writers h,
    exec_st_writers h, exec_fb_writers h, exec_mem_writers h, exec_keeps_inputs h⟩

/-- A run of reads that answers has read as many bytes as it was asked for (R205). -/
theorem length_of_loadBytes_ok {a n : Nat} {m : Memory} {bytes : List Byte}
    (h : loadBytes a m n = .ok bytes) : bytes.length = n := by
  induction n generalizing a bytes with
  | zero =>
    cases h
    rfl
  | succ n ih =>
    obtain ⟨-, hr⟩ | ⟨-, hr⟩ := memRead_cases a m <;> simp only [loadBytes, hr] at h
    · cases hl : loadBytes (a + 1) m n with
      | error f => simp [hl] at h
      | ok rest =>
        rw [hl] at h
        cases h
        simp [ih hl]
    · cases h

/-- A register outside the instruction's "writes" column of R33 keeps its value. -/
theorem exec_readV_other {i : Instr} {s t : State} {r : Reg} (h : exec i s = .next t)
    (hr : registersWritten i r = false) : readV t r = readV s r := by
  cases i <;> simp only [registersWritten, decide_eq_false_iff_not, not_or, not_le] at hr
  case ldVxK x =>
    obtain ⟨-, rfl⟩ | ⟨k, -, rfl⟩ := exec_ldVxK_iff.mp h
    · rfl
    · simp [hr]
  case drw x y n =>
    obtain ⟨f, -, rfl⟩ | ⟨rows, c, -, -, rfl⟩ := exec_drw_iff.mp h
    · rfl
    · rw [readV_writeV, if_neg hr]
      rfl
  case ldLoad x =>
    obtain ⟨f, -, rfl⟩ | ⟨bytes, hl, rfl⟩ := exec_ldLoad_iff.mp h
    · rfl
    · have hlen := length_of_loadBytes_ok hl
      have hxr : x.val < r.val := hr
      simp only [readV]
      rw [getElem_fillV, dif_neg (by omega)]
  case addReg | subReg | subnReg | shr | shl =>
    cases h
    rw [readV_writeFlagged, if_neg hr.1, if_neg hr.2]
  case ldByte | addByte | ldReg | orReg | andReg | xorReg | rnd | ldVxDt =>
    cases h
    rw [readV_writeV, if_neg hr]
  all_goals
    rw [exec_frame h]
    rfl

/-- Settles O39: a register outside the table's column is kept. -/
theorem registersChangeOnlyWhereTheTableAllows :
    Obligations.RegistersChangeOnlyWhereTheTableAllows := by
  intro i s t r h hne
  by_contra hr
  exact hne (exec_readV_other h (Bool.eq_false_of_not_eq_true hr))

/-! ### What each instruction reads of the inputs and the screen -/

/-- The instructions that read the keys (R41). -/
def readsKeys : Instr → Bool
  | .skp _ | .sknp _ | .ldVxK _ => true
  | _ => false

/-- The instruction that reads the random offer (R220). -/
def readsRandom : Instr → Bool
  | .rnd _ _ => true
  | _ => false

/-- The instruction that reads the framebuffer (R40). -/
def readsScreen : Instr → Bool
  | .drw _ _ _ => true
  | _ => false

/-- The instructions that write the framebuffer (R40). -/
def writesScreen : Instr → Bool
  | .cls | .drw _ _ _ => true
  | _ => false

theorem readsKeys_iff {i : Instr} :
    readsKeys i = true ↔ ∃ x, i = .skp x ∨ i = .sknp x ∨ i = .ldVxK x := by
  cases i <;> simp [readsKeys]

theorem readsRandom_iff {i : Instr} : readsRandom i = true ↔ ∃ x m, i = .rnd x m := by
  cases i <;> simp [readsRandom]

theorem readsScreen_iff {i : Instr} : readsScreen i = true ↔ ∃ x y n, i = .drw x y n := by
  cases i <;> simp [readsScreen]

theorem writesScreen_iff {i : Instr} :
    writesScreen i = true ↔ i = .cls ∨ ∃ x y n, i = .drw x y n := by
  cases i <;> simp [writesScreen]

/-- An instruction that does not write the framebuffer leaves it. -/
theorem exec_screen {i : Instr} {s t : State} (h : exec i s = .next t) :
    (if writesScreen i = true then t.fb else s.fb) = t.fb := by
  split
  · rfl
  · rename_i hw
    by_contra hne
    exact hw (writesScreen_iff.mpr (exec_fb_writers h (Ne.symm hne)))

/-- The keys, the random offer and the framebuffer may be exchanged under any instruction that does not
read them: it answers the same next state with them exchanged, but for a framebuffer it has written. -/
theorem exec_exchange {i : Instr} {s t : State} (keys : Vector Bool 16) (b : Byte)
    (screen : Framebuffer) (h : exec i s = .next t) (hk : readsKeys i = true → keys = s.key)
    (hb : readsRandom i = true → b = s.rnd) (hf : readsScreen i = true → screen = s.fb) :
    exec i { s with key := keys, rnd := b, fb := screen } =
      .next { t with key := keys, rnd := b, fb := if writesScreen i = true then t.fb else screen } := by
  cases i
  case rnd =>
    obtain rfl := hb rfl
    cases h
    rfl
  case skp =>
    obtain rfl := hk rfl
    obtain ⟨hn, rfl⟩ | ⟨k, hn, rfl⟩ := exec_skp_iff.mp h
    · exact exec_skp_iff.mpr (.inl ⟨hn, rfl⟩)
    · exact exec_skp_iff.mpr (.inr ⟨k, hn, rfl⟩)
  case sknp =>
    obtain rfl := hk rfl
    obtain ⟨hn, rfl⟩ | ⟨k, hn, rfl⟩ := exec_sknp_iff.mp h
    · exact exec_sknp_iff.mpr (.inl ⟨hn, rfl⟩)
    · exact exec_sknp_iff.mpr (.inr ⟨k, hn, rfl⟩)
  case ldVxK =>
    obtain rfl := hk rfl
    obtain ⟨hn, rfl⟩ | ⟨k, hn, rfl⟩ := exec_ldVxK_iff.mp h
    · exact exec_ldVxK_iff.mpr (.inl ⟨hn, rfl⟩)
    · exact exec_ldVxK_iff.mpr (.inr ⟨k, hn, rfl⟩)
  case drw =>
    obtain rfl := hf rfl
    obtain ⟨f, hl, rfl⟩ | ⟨rows, c, hl, hc, rfl⟩ := exec_drw_iff.mp h
    · exact exec_drw_iff.mpr (.inl ⟨f, hl, rfl⟩)
    · exact exec_drw_iff.mpr (.inr ⟨rows, c, hl, hc, rfl⟩)
  case ret =>
    obtain ⟨hn, rfl⟩ | ⟨hn, rfl⟩ := exec_ret_iff.mp h
    · exact exec_ret_iff.mpr (.inl ⟨hn, rfl⟩)
    · exact exec_ret_iff.mpr (.inr ⟨hn, rfl⟩)
  case callAddr =>
    obtain ⟨hn, rfl⟩ | ⟨hn, rfl⟩ := exec_callAddr_iff.mp h
    · exact exec_callAddr_iff.mpr (.inl ⟨hn, rfl⟩)
    · exact exec_callAddr_iff.mpr (.inr ⟨hn, rfl⟩)
  case ldLoad =>
    obtain ⟨f, hl, rfl⟩ | ⟨bytes, hl, rfl⟩ := exec_ldLoad_iff.mp h
    · exact exec_ldLoad_iff.mpr (.inl ⟨f, hl, rfl⟩)
    · exact exec_ldLoad_iff.mpr (.inr ⟨bytes, hl, rfl⟩)
  case ldB =>
    obtain ⟨f, hm, rfl⟩ | ⟨m, hm, rfl⟩ := exec_ldB_iff.mp h
    · exact exec_ldB_iff.mpr (.inl ⟨f, hm, rfl⟩)
    · exact exec_ldB_iff.mpr (.inr ⟨m, hm, rfl⟩)
  case ldStore =>
    obtain ⟨f, hm, rfl⟩ | ⟨m, hm, rfl⟩ := exec_ldStore_iff.mp h
    · exact exec_ldStore_iff.mpr (.inl ⟨f, hm, rfl⟩)
    · exact exec_ldStore_iff.mpr (.inr ⟨m, hm, rfl⟩)
  all_goals
    cases h
    rfl

/-- An instruction that does not read the keys does the same whatever they are. -/
theorem exec_keys_exchange {i : Instr} {s t : State} (keys : Vector Bool 16) (h : exec i s = .next t)
    (hi : readsKeys i = false) : exec i { s with key := keys } = .next { t with key := keys } := by
  obtain ⟨-, -, hrnd, -⟩ := exec_keeps_inputs h
  refine (exec_exchange keys s.rnd s.fb h (by simp [hi]) (fun _ => rfl) (fun _ => rfl)).trans ?_
  rw [exec_screen h, ← hrnd]

/-- An instruction that does not read the random offer does the same whatever it is. -/
theorem exec_random_exchange {i : Instr} {s t : State} (b : Byte) (h : exec i s = .next t)
    (hi : readsRandom i = false) : exec i { s with rnd := b } = .next { t with rnd := b } := by
  obtain ⟨-, hkey, -, -⟩ := exec_keeps_inputs h
  refine (exec_exchange s.key b s.fb h (fun _ => rfl) (by simp [hi]) (fun _ => rfl)).trans ?_
  rw [exec_screen h, ← hkey]

/-- An instruction that does not read the framebuffer does the same whatever it shows. -/
theorem exec_screen_exchange {i : Instr} {s t : State} (screen : Framebuffer)
    (h : exec i s = .next t) (hi : readsScreen i = false) :
    exec i { s with fb := screen } =
      .next { t with fb := if writesScreen i = true then t.fb else screen } := by
  obtain ⟨-, hkey, hrnd, -⟩ := exec_keeps_inputs h
  refine (exec_exchange s.key s.rnd screen h (fun _ => rfl) (fun _ => rfl) (by simp [hi])).trans ?_
  rw [← hkey, ← hrnd]

/-- A step leaves the keys: they are the host's (R41). -/
theorem step_key {s t : State} (h : step s = .next t) : t.key = s.key := by
  obtain ⟨-, rfl⟩ | ⟨-, f, -, rfl⟩ | ⟨-, w, r, -, -, rfl⟩ | ⟨-, w, i, u, -, -, -, -, rfl⟩ |
    ⟨-, w, i, u, -, -, hu, -, rfl⟩ := step_cases h
  case inr.inr.inr.inr =>
    obtain ⟨-, hkey, -, -⟩ := exec_keeps_inputs hu
    exact hkey
  all_goals rfl

@[simp] theorem readV_reset (x : Reg) : readV State.reset x = 0 := by
  simp [readV, State.reset]

/-- The keypad with every key pressed; at reset none is. -/
def allPressed : Vector Bool 16 := Vector.replicate 16 true

/-- Each key instruction takes another path from reset with every key pressed than with none. -/
theorem exec_reads_keys (i : Instr) (x : Reg) (hi : i = .skp x ∨ i = .sknp x ∨ i = .ldVxK x) :
    ∃ t u, exec i State.reset = .next t ∧
      exec i { State.reset with key := allPressed } = .next u ∧ t.pc ≠ u.pc := by
  have hkey : keyNumber (readV State.reset x) = some 0 := by
    rw [readV_reset]
    rfl
  obtain rfl | rfl | rfl := hi
  · exact ⟨_, _, exec_skp_iff.mpr (.inr ⟨0, hkey, rfl⟩), exec_skp_iff.mpr (.inr ⟨0, hkey, rfl⟩),
      by decide⟩
  · exact ⟨_, _, exec_sknp_iff.mpr (.inr ⟨0, hkey, rfl⟩), exec_sknp_iff.mpr (.inr ⟨0, hkey, rfl⟩),
      by decide⟩
  · exact ⟨_, _, exec_ldVxK_iff.mpr (.inl ⟨by decide, rfl⟩),
      exec_ldVxK_iff.mpr (.inr ⟨0, by decide, rfl⟩), by simp [State.reset]⟩

/-- Settles O41: the three readers by a concrete state and keys, the others by exchanging the keys. -/
theorem keypadIsReadByThreeInstructions : Obligations.KeypadIsReadByThreeInstructions := by
  refine ⟨fun _ _ => rfl, fun _ _ => step_key, fun i x hi => ?_, fun i s t keys h hi => ?_⟩
  · obtain ⟨t, u, ht, hu, hne⟩ := exec_reads_keys i x hi
    exact ⟨_, t, u, _, ht, hu, hne⟩
  · refine exec_keys_exchange keys h (Bool.eq_false_of_not_eq_true fun hr => ?_)
    obtain ⟨x, hx⟩ := readsKeys_iff.mp hr
    obtain ⟨h1, h2, h3⟩ := hi x
    simp [h1, h2, h3] at hx

/-- Settles O43, by exchanging the random offer. -/
theorem randomInputIsReadOnlyByRnd : Obligations.RandomInputIsReadOnlyByRnd := by
  intro i s t b h hi
  refine exec_random_exchange b h (Bool.eq_false_of_not_eq_true fun hr => ?_)
  obtain ⟨x, m, hx⟩ := readsRandom_iff.mp hr
  exact hi x m hx

/-- The reset state with `I` at glyph 0, whose first row begins with an on pixel (R84). -/
def atGlyph : State := { State.reset with i := 0x050 }

/-- A screen with every cell on. -/
def litScreen : Framebuffer := Vector.replicate 32 (Vector.replicate 64 true)

/-- DRW of one row sees no collision on a dark screen and one on a lit screen (R232). -/
theorem exec_drw_reads_screen (x y : Reg) :
    ∃ t u, exec (.drw x y 1) atGlyph = .next t ∧
      exec (.drw x y 1) { atGlyph with fb := litScreen } = .next u ∧ readV t 15 ≠ readV u 15 := by
  have hx : ∀ r : Reg, readV atGlyph r = 0 := readV_reset
  have hl : loadBytes (indexAddr atGlyph 0) atGlyph.mem (1 : Nibble).toNat = .ok [0xF0] := by decide
  refine ⟨_, _, exec_drw_iff.mpr (.inr ⟨_, drawRows 0 0 [0xF0] (atGlyph.fb, false), hl, ?_, rfl⟩),
    exec_drw_iff.mpr (.inr ⟨_, drawRows 0 0 [0xF0] (litScreen, false), hl, ?_, rfl⟩), ?_⟩
  · rw [hx, hx]
    rfl
  · have hx' : ∀ r : Reg, readV { atGlyph with fb := litScreen } r = 0 := readV_reset
    rw [hx', hx']
    rfl
  · have hdark : (drawRows 0 0 [0xF0] (atGlyph.fb, false)).2 = false := by decide
    have hlit : (drawRows 0 0 [0xF0] (litScreen, false)).2 = true := by decide
    rw [readV_writeV, readV_writeV, hdark, hlit]
    decide

/-- Settles O42: the one reader by two concrete screens, the others by exchanging the screen. -/
theorem framebufferIsReadOnlyByDraw : Obligations.FramebufferIsReadOnlyByDraw := by
  refine ⟨fun _ _ _ => exec_fb_writers, fun i s t screen h hi => ?_, fun x y => ?_, fun _ => rfl⟩
  · have hr : readsScreen i = false := Bool.eq_false_of_not_eq_true fun hread => by
      obtain ⟨x, y, n, hx⟩ := readsScreen_iff.mp hread
      exact hi x y n hx
    have hw : writesScreen i = true ↔ i = .cls := by simp [writesScreen_iff, hi]
    rw [exec_screen_exchange screen h hr]
    simp only [hw]
  · obtain ⟨t, u, ht, hu, hne⟩ := exec_drw_reads_screen x y
    exact ⟨_, t, u, _, ht, hu, hne⟩

/-! ### Halting and reset -/

/-- Settles O7: a halted block does not even fetch. -/
theorem haltedStepChangesNothing : Obligations.HaltedStepChangesNothing := by
  intro s h
  rw [step, if_pos h]

/-- Reset memory reads as 0 outside the font set (R55, R72). -/
theorem resetByte_outside {a : Nat} (h : a < 0x050 ∨ 0x09F < a) : resetByte a = 0 := by
  rw [resetByte, if_neg]
  simp only [Config.fontBase, Config.fontBytes]
  omega

/-- Reset memory holds glyphs 0 to 7 from 0x050 up (R84). -/
theorem resetByte_fontLow : (List.range 40).map (fun k => resetByte (0x050 + k)) = fontLow := by
  decide

/-- Reset memory holds glyphs 8 to F after them (R84). -/
theorem resetByte_fontHigh : (List.range 40).map (fun k => resetByte (0x078 + k)) = fontHigh := by
  decide

/-- Every cell of the framebuffer is off at reset (R55). -/
theorem reset_fb_off (row : Fin 32) (col : Fin 64) :
    State.reset.fb[row.val][col.val] = false := by
  simp [State.reset]

/-- The host's reset of any state leaves the reset state, but for the random offer (R341, log 12). -/
theorem eq_reset_of_reset {s t : State} (h : t = State.reset ∨ t = hostReset s) :
    t = { State.reset with rnd := t.rnd, rndSeq := t.rndSeq } := by
  obtain rfl | rfl := h <;> rfl

/-- Settles O53, on the reset state with any random offer. -/
theorem resetLeavesTheStatedValues : Obligations.ResetLeavesTheStatedValues := by
  intro s t h
  rw [eq_reset_of_reset h]
  exact ⟨readV_reset, rfl, rfl, rfl, fun _ => Vector.getElem_replicate _,
    fun _ => resetByte_outside, resetByte_fontLow, resetByte_fontHigh, rfl, rfl,
    fun row col => reset_fb_off row col, fun _ => Vector.getElem_replicate _, rfl, rfl⟩

/-- Settles O54: reset memory lists nothing, the stack is zero, `PC` is 0x200 and `FAULT` is clear. -/
theorem resetSatisfiesTheInvariant : Obligations.ResetSatisfiesTheInvariant where
  memCanonical := State.reset_wf
  reservedIntact _ _ := rfl
  stackBound := by decide
  pcBound := by decide
  faultLegal := ⟨fun _ => rfl, fun h => by cases h⟩

/-- The host's load writes memory only (R346). -/
theorem hostLoad_fault {image : List Byte} {s t : State} (h : hostLoad image s = some t) :
    t.fault = s.fault := by
  unfold hostLoad at h
  split at h
  · cases h
    rfl
  · cases h

/-- Settles O59: the step by O7, the host's other transactions by what they write. -/
theorem onlyResetClearsAFault : Obligations.OnlyResetClearsAFault := by
  intro s hs
  refine ⟨fun t ht => ?_, fun _ _ => hostLoad_fault, fun _ => rfl, fun _ => rfl, rfl⟩
  rw [haltedStepChangesNothing s hs] at ht
  cases ht
  rfl

end Sys2Proof.Machine

namespace Sys2Proof.Machine

/-! ### Memory: the fetch -/

/-- An address that fits a word is recorded as it is (R80). -/
@[simp] theorem addrOf_toNat (w : Word) : addrOf w.toNat = w := by
  simp [addrOf]

/-- A fetch answers exactly where both bytes exist, and then with the two side by side (R76, R80). -/
theorem fetch16_ok_iff {a : Nat} {m : Memory} {w : Word} :
    fetch16 a m = .ok w ↔ a + 1 < Config.memSize ∧ w = m.peek a ++ m.peek (a + 1) := by
  obtain ⟨ha, h⟩ | ⟨ha, h⟩ := fetch16_cases a m <;> rw [h]
  · simp only [ha, true_and, Except.ok.injEq, eq_comm]
  · simp only [reduceCtorEq, Nat.not_lt.mpr ha, false_and]

/-- A step whose fetch fails enters that fault with word 0 (R141, R310). -/
theorem step_of_fetch_error {s : State} {f : Fault} (hs : s.fault.active = false)
    (hf : fetch16 s.pc.toNat s.mem = .error f) : step s = .next (enterFault f s.pc 0 s) := by
  simp [step, hs, runStep, hf]

/-- Settles O8: beyond 0xFFE the fetch has no second byte, and fails. -/
theorem fetchBeyondMemoryFaults : Obligations.FetchBeyondMemoryFaults := by
  intro s hs hpc
  obtain ⟨h, -⟩ | ⟨-, hf⟩ := fetch16_cases s.pc.toNat s.mem
  · simp only [Config.memSize] at h
    omega
  · rw [addrOf_toNat] at hf
    exact step_of_fetch_error hs hf

/-- A completed step fetched the word it leaves in `IW`: the engine latches it and no handler writes
`IW` (R42, R142). -/
theorem fetch16_of_step_completed {s t : State} (hs : s.fault.active = false) (h : step s = .next t)
    (ht : t.fault.active = false) : fetch16 s.pc.toNat s.mem = .ok t.iw := by
  obtain ⟨hact, -⟩ | ⟨-, f, -, rfl⟩ | ⟨-, w, r, -, -, rfl⟩ | ⟨-, w, i, u, -, -, -, hact, rfl⟩ |
    ⟨-, w, i, u, hw, -, hu, -, rfl⟩ := step_cases h
  · simp [hs] at hact
  · cases ht
  · cases ht
  · simp [hact] at ht
  · obtain ⟨hiw, -⟩ := exec_keeps_inputs hu
    rw [finish_iw, hiw, advance_iw]
    exact hw

/-- Settles O12: the word in `IW` is the fetched one, and that is two bytes side by side. -/
theorem completedStepHoldsTheFetchedWord : Obligations.CompletedStepHoldsTheFetchedWord := by
  intro s t hs h ht
  obtain ⟨-, hiw⟩ := fetch16_ok_iff.mp (fetch16_of_step_completed hs h ht)
  rw [hiw]
  exact wordOfBytes_toNat _ _

/-! ### Memory: stored bytes and reserved bytes -/

/-- After a run of writes that answered, memory is overlaid with the bytes. -/
theorem peek_of_storeBytes_ok {s : State} {a : Nat} {bytes : List Byte} {m : Memory}
    (hs : s.mem.wf = true) (h : storeBytes a s.mem bytes = .ok m) (c : Nat) :
    m.peek c = overlaid s a bytes c := by
  obtain ⟨rfl, hb⟩ := storeBytes_inv h
  exact Memory.peek_pokes_eq bytes hs (hb.imp_right And.right) c

/-- The block of registers LD [I], Vx stores is the one list of that length with those entries
(R204). -/
theorem eq_blockV {s : State} {x : Reg} {bytes : List Byte} (hlen : bytes.length = x.val + 1)
    (h : ∀ k : Reg, k ≤ x → bytes[k.val]? = some (readV s k)) : bytes = blockV s x := by
  refine List.ext_getElem (by simp [hlen]) fun k h1 h2 => ?_
  rw [getElem_blockV]
  exact (List.getElem_eq_iff h1).mpr (h ⟨k, by omega⟩ (Fin.le_def.mpr (by simp only; omega)))

/-- What memory reads as after LD B that did not fault (R203). -/
theorem exec_ldB_peek {x : Reg} {s t : State} (hs : s.mem.wf = true) (h : exec (.ldB x) s = .next t)
    (ht : t.fault.active = false) (c : Nat) :
    t.mem.peek c = overlaid s (indexAddr s 0) (bcdDigits (readV s x)) c := by
  obtain ⟨f, -, rfl⟩ | ⟨m, hm, rfl⟩ := exec_ldB_iff.mp h
  · cases ht
  · exact peek_of_storeBytes_ok hs hm c

/-- What memory reads as after LD [I], Vx that did not fault (R204). -/
theorem exec_ldStore_peek {x : Reg} {s t : State} (hs : s.mem.wf = true)
    (h : exec (.ldStore x) s = .next t) (ht : t.fault.active = false) (c : Nat) :
    t.mem.peek c = overlaid s (indexAddr s 0) (blockV s x) c := by
  obtain ⟨f, -, rfl⟩ | ⟨m, hm, rfl⟩ := exec_ldStore_iff.mp h
  · cases ht
  · exact peek_of_storeBytes_ok hs hm c

/-- Settles O15: the fetch reads `M` itself, which the store left overlaid with its bytes (R91). -/
theorem storedBytesAreFetched : Obligations.StoredBytesAreFetched := by
  intro x i bytes s t r hs hi h ht hmem hr hpc
  have hpeek : ∀ c, r.mem.peek c = overlaid s (indexAddr s 0) bytes c := by
    intro c
    rw [hmem]
    obtain ⟨rfl, rfl⟩ | ⟨rfl, hlen, hget⟩ := hi
    · exact exec_ldB_peek hs h ht c
    · rw [eq_blockV hlen hget]
      exact exec_ldStore_peek hs h ht c
  have hfetch : fetch16 r.pc.toNat r.mem = .ok (overlaid s (indexAddr s 0) bytes r.pc.toNat ++
      overlaid s (indexAddr s 0) bytes (r.pc.toNat + 1)) :=
    fetch16_ok_iff.mpr ⟨hpc, by rw [hpeek, hpeek]⟩
  refine ⟨_, rfl, hfetch, fun u hu hok => ?_⟩
  exact Except.ok.inj ((fetch16_of_step_completed hr hu hok).symm.trans hfetch)

/-- Settles O36: only a completed handler changes memory, and it keeps the reserved bytes. -/
theorem reservedMemoryIsNeverWritten : Obligations.ReservedMemoryIsNeverWritten := by
  intro s t a h ha
  obtain ⟨-, rfl⟩ | ⟨-, f, -, rfl⟩ | ⟨-, w, r, -, -, rfl⟩ | ⟨-, w, i, u, -, -, -, -, rfl⟩ |
    ⟨-, w, i, u, -, -, hu, -, rfl⟩ := step_cases h
  case inr.inr.inr.inr =>
    obtain hk | ⟨f, -, rfl⟩ := exec_cases hu
    · exact hk.reserved a ha
    · rfl
  all_goals rfl

/-! ### Memory: the canonical form is unique -/

/-- The canonical form, cell by cell. -/
theorem Memory.wfFrom_head_iff {low : Nat} {p : Host.Cell} {m : Memory} :
    Memory.wfFrom low (p :: m) = true ↔
      low ≤ p.1 ∧ p.1 < Config.memSize ∧ p.2 ≠ resetByte p.1 ∧ Memory.wfFrom (p.1 + 1) m = true := by
  simp only [Memory.wfFrom, Bool.and_eq_true, decide_eq_true_eq, bne_iff_ne, and_assoc]

/-- A canonical memory is so from its first listed address on. -/
theorem Memory.wfFrom_at_head {low : Nat} {p : Host.Cell} {m : Memory}
    (hm : Memory.wfFrom low (p :: m) = true) : Memory.wfFrom p.1 (p :: m) = true := by
  obtain ⟨-, hp⟩ := Memory.wfFrom_head_iff.mp hm
  exact Memory.wfFrom_head_iff.mpr ⟨le_rfl, hp⟩

/-- A canonical memory that reads like one whose first listed cell is `p` begins no higher than `p`:
below its first cell it reads as its reset contents, and `p` does not. -/
theorem Memory.le_head_of_peek_eq {low low' : Nat} {p : Host.Cell} {m m' : Memory}
    (hm : Memory.wfFrom low (p :: m) = true) (hm' : Memory.wfFrom low' m' = true)
    (h : Memory.peek (p :: m) p.1 = m'.peek p.1) : low' ≤ p.1 := by
  obtain ⟨-, -, hne, -⟩ := Memory.wfFrom_head_iff.mp hm
  by_contra hlt
  rw [Memory.peek_head, if_pos rfl, Memory.peek_below hm' (by omega)] at h
  exact hne h

/-- Canonical memories that read alike and begin at the same address have equal first cells and rests
that read alike. -/
theorem Memory.peek_tail_eq {p p' : Host.Cell} {m m' : Memory} (hp : p.1 = p'.1)
    (hm : Memory.wfFrom (p.1 + 1) m = true) (hm' : Memory.wfFrom (p'.1 + 1) m' = true)
    (h : ∀ a, Memory.peek (p :: m) a = Memory.peek (p' :: m') a) :
    p = p' ∧ ∀ a, m.peek a = m'.peek a := by
  simp only [Memory.peek_head, ← hp] at h
  refine ⟨Prod.ext hp (by simpa using h p.1), fun a => ?_⟩
  by_cases ha : a = p.1
  · rw [Memory.peek_below hm (by omega), Memory.peek_below hm' (by omega)]
  · simpa [ha] using h a

/-- Reading determines a canonical memory. -/
theorem Memory.eq_of_peek_eq {low low' : Nat} {m m' : Memory} (hm : Memory.wfFrom low m = true)
    (hm' : Memory.wfFrom low' m' = true) (h : ∀ a, m.peek a = m'.peek a) : m = m' := by
  induction m generalizing low low' m' with
  | nil =>
    cases m' with
    | nil => rfl
    | cons p' m' =>
      have : p'.1 + 1 ≤ p'.1 := Memory.le_head_of_peek_eq (m' := []) hm' rfl (h _).symm
      omega
  | cons p m ih =>
    cases m' with
    | nil =>
      have : p.1 + 1 ≤ p.1 := Memory.le_head_of_peek_eq (m' := []) hm rfl (h _)
      omega
    | cons p' m' =>
      obtain ⟨-, -, -, hrest⟩ := Memory.wfFrom_head_iff.mp hm
      obtain ⟨-, -, -, hrest'⟩ := Memory.wfFrom_head_iff.mp hm'
      have hle : p'.1 ≤ p.1 := Memory.le_head_of_peek_eq hm (Memory.wfFrom_at_head hm') (h _)
      have hge : p.1 ≤ p'.1 := Memory.le_head_of_peek_eq hm' (Memory.wfFrom_at_head hm) (h _).symm
      obtain ⟨rfl, htail⟩ := Memory.peek_tail_eq (Nat.le_antisymm hge hle) hrest hrest' h
      rw [ih hrest hrest' htail]

/-- Settles O37, with both memories canonical from address 0 up. -/
theorem canonicalMemoriesThatReadAlikeAreEqual :
    Obligations.CanonicalMemoriesThatReadAlikeAreEqual :=
  fun _ _ hm hm' h => Memory.eq_of_peek_eq hm hm' h

end Sys2Proof.Machine

namespace Sys2Proof

/-! ### Encoding: the words the opcode map covers -/

/-- The rows of the class `k` with the low-nibble selectors `ds` (R104). -/
def nibbleRows (k : Nibble) (ds : List Nibble) : List OpcodeRow :=
  ds.map fun d => nibbleRow (k ++ 0x0#4 ++ 0x0#4 ++ d)

/-- The rows of the class `k` with the low-byte selectors `bs` (R104). -/
def byteRows (k : Nibble) (bs : List Byte) : List OpcodeRow :=
  bs.map fun b => byteRow (k ++ 0x0#4 ++ b)

/-- The rows of the classes `ks`, each of which selects its handler alone (R104). -/
def classRows (ks : List Nibble) : List OpcodeRow :=
  ks.map fun k => classRow (k ++ 0x0#4 ++ 0x0#4 ++ 0x0#4)

theorem any_nibbleRows_covers {k : Nibble} {ds : List Nibble} {w : Word} :
    (nibbleRows k ds).any (·.covers w) = true ↔ classOf w = k ∧ lowNibble w ∈ ds := by
  simp [nibbleRows, nibbleRow_covers, and_comm]

theorem any_byteRows_covers {k : Nibble} {bs : List Byte} {w : Word} :
    (byteRows k bs).any (·.covers w) = true ↔ classOf w = k ∧ lowByte w ∈ bs := by
  simp [byteRows, byteRow_covers, and_comm]

theorem any_classRows_covers {ks : List Nibble} {w : Word} :
    (classRows ks).any (·.covers w) = true ↔ classOf w ∈ ks := by
  simp [classRows, classRow_covers]

/-- The low nibbles that select a handler in class 0x0 (R106). -/
def selectors0 : List Nibble := [0x0, 0xE]

/-- The low nibbles that select a handler in class 0x8 (R106). -/
def selectors8 : List Nibble := [0x0, 0x1, 0x2, 0x3, 0x4, 0x5, 0x6, 0x7, 0xE]

/-- The low nibbles that select a handler in class 0xE (R106). -/
def selectorsE : List Nibble := [0xE, 0x1]

/-- The low bytes that select a handler in class 0xF (R106). -/
def selectorsF : List Byte := [0x07, 0x0A, 0x15, 0x18, 0x1E, 0x29, 0x33, 0x55, 0x65]

/-- The classes below 0x8 that select a handler alone (R104). -/
def soleClassesLow : List Nibble := [0x1, 0x2, 0x3, 0x4, 0x5, 0x6, 0x7]

/-- The classes above 0x8 that select a handler alone (R104). -/
def soleClassesHigh : List Nibble := [0x9, 0xA, 0xB, 0xC, 0xD]

/-- The opcode map, in its own order, by how each class selects (R104, R105). -/
theorem opcodeMap_eq_classes :
    opcodeMap = nibbleRows 0x0 selectors0 ++ classRows soleClassesLow ++
      nibbleRows 0x8 selectors8 ++ classRows soleClassesHigh ++
      nibbleRows 0xE selectorsE ++ byteRows 0xF selectorsF := by
  decide

/-- A word is legal iff its class selects alone or the word holds a selector of its class (R111). -/
theorem legalWord_iff {w : Word} :
    legalWord w = true ↔
      (classOf w = 0x0 ∧ lowNibble w ∈ selectors0) ∨
      (classOf w = 0x8 ∧ lowNibble w ∈ selectors8) ∨
      (classOf w = 0xE ∧ lowNibble w ∈ selectorsE) ∨
      (classOf w = 0xF ∧ lowByte w ∈ selectorsF) ∨
      classOf w ∈ soleClassesLow ++ soleClassesHigh := by
  simp only [legalWord, opcodeMap_eq_classes, List.any_append, Bool.or_eq_true,
    any_nibbleRows_covers, any_byteRows_covers, any_classRows_covers, List.mem_append]
  tauto

/-! ### Encoding: the words the decoder accepts -/

theorem decodeClass0_ok_iff {w : Word} :
    (∃ i, decodeClass0 w = .ok i) ↔ lowNibble w ∈ selectors0 := by
  unfold decodeClass0
  split <;> simp_all [selectors0]

theorem decodeClass8_ok_iff {w : Word} :
    (∃ i, decodeClass8 w = .ok i) ↔ lowNibble w ∈ selectors8 := by
  unfold decodeClass8
  split <;> simp_all [selectors8]

theorem decodeClassE_ok_iff {w : Word} :
    (∃ i, decodeClassE w = .ok i) ↔ lowNibble w ∈ selectorsE := by
  unfold decodeClassE
  split <;> simp_all [selectorsE]

theorem decodeClassF_ok_iff {w : Word} :
    (∃ i, decodeClassF w = .ok i) ↔ lowByte w ∈ selectorsF := by
  unfold decodeClassF
  split <;> simp_all [selectorsF]

/-- A class has a secondary selector or selects alone (R104). -/
theorem class_cases (k : Nibble) :
    k = 0x0 ∨ k = 0x8 ∨ k = 0xE ∨ k = 0xF ∨ k ∈ soleClassesLow ++ soleClassesHigh := by
  revert k
  decide

theorem decode_of_class0 {w : Word} (h : classOf w = 0x0) : decode w = decodeClass0 w := by
  simp [decode, h]

theorem decode_of_class8 {w : Word} (h : classOf w = 0x8) : decode w = decodeClass8 w := by
  simp [decode, h]

theorem decode_of_classE {w : Word} (h : classOf w = 0xE) : decode w = decodeClassE w := by
  simp [decode, h]

theorem decode_of_classF {w : Word} (h : classOf w = 0xF) : decode w = decodeClassF w := by
  simp [decode, h]

/-- A class that selects alone accepts all its words (R106, R107). -/
theorem decode_ok_of_soleClass {w : Word} (h : classOf w ∈ soleClassesLow ++ soleClassesHigh) :
    ∃ i, decode w = .ok i := by
  simp only [soleClassesLow, soleClassesHigh, List.cons_append, List.nil_append, List.mem_cons,
    List.not_mem_nil, or_false] at h
  obtain h | h | h | h | h | h | h | h | h | h | h | h := h <;> simp [decode, h]

/-- Settles O2, class by class: both descriptions list the same selectors. -/
theorem decoderAcceptsExactlyTheOpcodeMap : Obligations.DecoderAcceptsExactlyTheOpcodeMap := by
  intro w
  rw [legalWord_iff]
  obtain h | h | h | h | h := class_cases (classOf w)
  · simp [decode_of_class0 h, decodeClass0_ok_iff, h, soleClassesLow, soleClassesHigh]
  · simp [decode_of_class8 h, decodeClass8_ok_iff, h, soleClassesLow, soleClassesHigh]
  · simp [decode_of_classE h, decodeClassE_ok_iff, h, soleClassesLow, soleClassesHigh]
  · simp [decode_of_classF h, decodeClassF_ok_iff, h, soleClassesLow, soleClassesHigh]
  · exact iff_of_true (decode_ok_of_soleClass h) (.inr (.inr (.inr (.inr h))))

/-- The decoder rejects a word no row covers (R111). -/
theorem decode_error_of_illegal {w : Word} (h : legalWord w = false) : ∃ r, decode w = .error r := by
  cases hd : decode w with
  | error r => exact ⟨r, rfl⟩
  | ok i =>
    have hl : legalWord w = true := (decoderAcceptsExactlyTheOpcodeMap w).mp ⟨i, hd⟩
    simp [h] at hl

/-! ### Encoding: decoding a word written field by field -/

/-- Class 0x5 ignores the low nibble (R107). -/
theorem decode_seReg_word (x y : Reg) (n : Nibble) :
    decode (0x5#4 ++ regBits x ++ regBits y ++ n) = .ok (.seReg x y) := by
  simp [decode]

/-- Class 0x9 ignores the low nibble (R107). -/
theorem decode_sneReg_word (x y : Reg) (n : Nibble) :
    decode (0x9#4 ++ regBits x ++ regBits y ++ n) = .ok (.sneReg x y) := by
  simp [decode]

/-- The encoding of an instruction decodes to it. The cases are the formats of R102, each with the
decoder of its class. -/
theorem decode_encode (i : Instr) : decode (encode i) = .ok i := by
  cases i with
  | cls | ret => rfl
  | jpAddr | callAddr | ldI | jpV0 => simp [encode, decode]
  | seByte | sneByte | ldByte | addByte | rnd => simp [encode, decode]
  | seReg x y => exact decode_seReg_word x y 0x0
  | sneReg x y => exact decode_sneReg_word x y 0x0
  | drw => simp [encode, decode]
  | ldReg | orReg | andReg | xorReg | addReg | subReg | shr | subnReg | shl =>
    simp [encode, decode_of_class8, decodeClass8]
  | skp | sknp => simp [encode, decode_of_classE, decodeClassE]
  | ldVxDt | ldVxK | ldDtVx | ldStVx | addI | ldF | ldB | ldStore | ldLoad =>
    simp [encode, decode_of_classF, decodeClassF]

/-- The bytes of a word decode as the word does, and the bytes after them are left (R76, R100). -/
theorem decodeBytes_bytesOfWord (w : Word) (rest : List Byte) :
    decodeBytes (bytesOfWord w ++ rest) = (decode w).map (·, rest) := by
  simp only [bytesOfWord, List.cons_append, List.nil_append, decodeBytes, wordOfBytes_bytes]

/-- Settles O1: the round trip on words gives the one on bytes, and legality by O2. -/
theorem decodeOfEncodeIsTheInstruction : Obligations.DecodeOfEncodeIsTheInstruction := by
  intro i rest
  refine ⟨decode_encode i, ?_, (decoderAcceptsExactlyTheOpcodeMap _).mp ⟨i, decode_encode i⟩⟩
  rw [encodeBytes, decodeBytes_bytesOfWord, decode_encode]
  rfl

/-- Settles O4: in each class the decoder reads only the class nibble, the selector and the operands. -/
theorem decoderIgnoresTheUnusedBits : Obligations.DecoderIgnoresTheUnusedBits := by
  intro x y n z m
  refine ⟨?_, ?_, decode_seReg_word x y n, decode_sneReg_word x y n, ?_, ?_⟩
  · simp [decode_of_class0, decodeClass0]
  · simp [decode_of_class0, decodeClass0]
  · simp [decode_of_classE, decodeClassE]
  · simp [decode_of_classE, decodeClassE]

/-- Settles O5: each sample is the standard spelling of its instruction. -/
theorem decoderReadsTheSampleWords : Obligations.DecoderReadsTheSampleWords :=
  ⟨decode_encode .cls, decode_encode (.jpAddr 0xABC), decode_encode (.seByte 10 0x7F),
    decode_encode (.shr 11 4), decode_encode (.ldI 0x123), decode_encode (.rnd 9 0xF0),
    decode_encode (.drw 1 2 15), decode_encode (.skp 7), decode_encode (.ldDtVx 6),
    decode_encode (.ldLoad 12)⟩

/-! ### Encoding: the rows of the opcode map are disjoint -/

/-- Two rows that share a word agree on the bits both of them test. -/
theorem OpcodeRow.agree_of_covers {r q : OpcodeRow} {w : Word} (hr : r.covers w = true)
    (hq : q.covers w = true) : r.pattern &&& q.mask = q.pattern &&& r.mask := by
  simp only [OpcodeRow.covers, beq_iff_eq] at hr hq
  rw [← hr, ← hq, BitVec.and_assoc, BitVec.and_assoc, BitVec.and_comm r.mask]

/-- Any two rows of the opcode map differ in a bit both of them test. -/
theorem opcodeMap_rows_differ :
    opcodeMap.Pairwise fun r q => r.pattern &&& q.mask ≠ q.pattern &&& r.mask := by
  decide

/-- Settles O3: a word in two rows would make them agree on the bits both of them test. -/
theorem opcodeMapRowsAreDisjoint : Obligations.OpcodeMapRowsAreDisjoint :=
  opcodeMap_rows_differ.imp fun hne _ ⟨hr, hq⟩ => hne (OpcodeRow.agree_of_covers hr hq)

end Sys2Proof

namespace Sys2Proof.Machine

/-! ### Encoding: an illegal word -/

/-- A step whose fetched word does not decode enters a DecodeFault with that word (R144, R302). -/
theorem step_of_decode_error {s : State} {w : Word} {r : DecodeReject}
    (hs : s.fault.active = false) (hf : fetch16 s.pc.toNat s.mem = .ok w)
    (hd : decode w = .error r) : step s = .next (enterFault .decode s.pc w s) := by
  simp [step, hs, runStep, hf, runWord, hd]

/-- Settles O9: the word is fetched and rejected, and the record is a DecodeFault's. -/
theorem illegalWordFaults : Obligations.IllegalWordFaults := by
  intro s w hs hpc hw hl
  obtain ⟨r, hd⟩ := decode_error_of_illegal hl
  exact step_of_decode_error hs (fetch16_ok_iff.mpr ⟨hpc, hw⟩) hd

end Sys2Proof.Machine

namespace Sys2Proof.Machine

/-! ### Dispatch: how a step ends -/

/-- A step whose fetched word decodes ends as its handler's answer on the working copy says (R145,
R149). -/
theorem step_of_decode_ok {s : State} {w : Word} {i : Instr} (hs : s.fault.active = false)
    (hf : fetch16 s.pc.toNat s.mem = .ok w) (hd : decode w = .ok i) :
    step s = commit s (exec i (advance w s)) := by
  simp [step, hs, runStep, hf, runWord, hd]

/-- A handler that leaves `FAULT` active on a working copy without a fault has raised one, and its
record names the word and the word's own address, two below the working copy's `PC` (R143, R310). -/
theorem exec_advance_record {i : Instr} {s u : State} {w : Word} (hs : s.fault.active = false)
    (h : exec i (advance w s) = .next u) (hu : u.fault.active = true) :
    ∃ f, u.fault = faultRecord f s.pc w := by
  obtain hk | ⟨f, -, rfl⟩ := exec_cases h
  · rw [hk.fault, advance_fault, hs] at hu
    cases hu
  · refine ⟨f, ?_⟩
    rw [enterFault_fault, advance_pc, advance_iw, BitVec.add_sub_cancel]

/-- A step that faults enters one fault on the state before it; the recorded word is the fetched one,
or 0 if the fetch itself failed (R148, R310). -/
theorem step_enters_fault {s t : State} (hs : s.fault.active = false) (h : step s = .next t)
    (ht : t.fault.active = true) :
    ∃ f w, t = enterFault f s.pc w s ∧
      (fetch16 s.pc.toNat s.mem = .ok w ∨ fetch16 s.pc.toNat s.mem = .error f ∧ w = 0) := by
  obtain ⟨hact, -⟩ | ⟨-, f, hf, rfl⟩ | ⟨-, w, r, hw, -, rfl⟩ | ⟨-, w, i, u, hw, -, hu, hact, rfl⟩ |
    ⟨-, w, i, u, -, -, -, hact, rfl⟩ := step_cases h
  · simp [hs] at hact
  · exact ⟨f, 0, rfl, .inr ⟨hf, rfl⟩⟩
  · exact ⟨.decode, w, rfl, .inl hw⟩
  · obtain ⟨f, hrec⟩ := exec_advance_record hs hu hact
    exact ⟨f, w, by rw [hrec, enterFault], .inl hw⟩
  · simp [hact] at ht

/-- Settles O10: the record is that of the one fault the step enters, and the fetch fails exactly
where the second byte does not exist (R80). -/
theorem faultingStepWritesOnlyFault : Obligations.FaultingStepWritesOnlyFault := by
  intro s t hs h ht
  obtain ⟨f, w, rfl, hw⟩ := step_enters_fault hs h ht
  refine ⟨rfl, rfl, faultRecord_legal f s.pc w, ?_⟩
  obtain hw | ⟨hf, rfl⟩ := hw
  · obtain ⟨hpc, rfl⟩ := fetch16_ok_iff.mp hw
    exact (if_pos hpc).symm
  · refine (if_neg fun hpc => ?_).symm
    rw [fetch16_ok_iff.mpr ⟨hpc, rfl⟩] at hf
    cases hf

/-- Settles O13: of the five ways a step can end only the completed one is left, and it counts both
timers down once, from what the handler left. -/
theorem timersDecayOncePerCompletedStep : Obligations.TimersDecayOncePerCompletedStep := by
  intro s t hs h ht
  obtain ⟨hact, -⟩ | ⟨-, f, -, rfl⟩ | ⟨-, w, r, -, -, rfl⟩ | ⟨-, w, i, u, -, -, -, hact, rfl⟩ |
    ⟨-, w, i, u, hw, hd, hu, -, rfl⟩ := step_cases h
  · simp [hs] at hact
  · cases ht
  · cases ht
  · simp [hact] at ht
  · exact ⟨w, i, u, hw, hd, hu, countDown_toNat u.dt, countDown_toNat u.st⟩

/-- Settles O6: the word is fetched and decoded, so the step is the end of its handler's run, by the
two cases of `commit`. -/
theorem stepRunsTheDecodedInstruction : Obligations.StepRunsTheDecodedInstruction := by
  intro s u w i hs hpc hw hd hu
  have hstep : step s = commit s (.next u) :=
    (step_of_decode_ok hs (fetch16_ok_iff.mpr ⟨hpc, hw⟩) hd).trans (congrArg (commit s) hu)
  obtain ⟨hact, hc⟩ | ⟨hact, hc⟩ := commit_next s u <;> rw [hc] at hstep
  · exact ⟨fun _ => hstep, fun hok => by simp [hact] at hok⟩
  · exact ⟨fun hf => by simp [hact] at hf, fun _ =>
      ⟨finish u, hstep, countDown_toNat u.dt, countDown_toNat u.st, rfl, rfl, rfl⟩⟩

end Sys2Proof.Machine

namespace Sys2Proof.Machine

/-! ### Control flow: jumps, calls and returns -/

/-- JP on any state (R160). -/
theorem exec_jpAddr (nnn : Addr12) (s : State) :
    exec (.jpAddr nnn) s = .next { s with pc := zextAddr nnn } := rfl

/-- Settles O16: a 12-bit address, extended to 16 bits, is the same number (R103). -/
theorem jumpSetsPc : Obligations.JumpSetsPc := fun nnn s =>
  ⟨_, exec_jpAddr nnn s, zextAddr_toNat nnn, rfl⟩

/-- Settles O17: the mask keeps the low 12 bits of the sum taken as a number. -/
theorem indexedJumpMasksTheSum : Obligations.IndexedJumpMasksTheSum := fun nnn s =>
  ⟨_, rfl, indexedTarget_toNat (readV s 0) nnn, rfl⟩

/-- Settles O18: below depth 16 CALL pushes, and a write to one slot leaves the others. -/
theorem callPushesTheReturnAddress : Obligations.CallPushesTheReturnAddress := fun nnn _ h =>
  ⟨_, exec_callAddr_iff.mpr (.inr ⟨h.ne, rfl⟩), rfl, Vector.getElem_set_self h,
    fun j hj => Vector.getElem_set_ne h j.isLt hj.symm, zextAddr_toNat nnn, rfl⟩

/-- Settles O19: above depth 0 RET pops. -/
theorem returnPopsTheReturnAddress : Obligations.ReturnPopsTheReturnAddress := fun _ h =>
  ⟨_, exec_ret_iff.mpr (.inr ⟨h.ne', rfl⟩), Nat.sub_add_cancel h, rfl, rfl⟩

/-- Settles O20: at either end of the stack the handler enters its fault with a record of its own
word and that word's address, two below the working copy's `PC`. -/
theorem stackEndsFault : Obligations.StackEndsFault := fun _ _ =>
  ⟨fun h => exec_callAddr_iff.mpr (.inl ⟨h, rfl⟩), fun h => exec_ret_iff.mpr (.inl ⟨h, rfl⟩)⟩

/-- Settles O21: the slot RET pops, one below the depth CALL left, is the one CALL wrote. -/
theorem returnUndoesCall : Obligations.ReturnUndoesCall := by
  intro nnn s t r hs ht hsp hstack
  obtain ⟨t', ht', hdepth, hslot, -⟩ := callPushesTheReturnAddress nnn s hs
  cases ht.symm.trans ht'
  have hr : r.sp.val = s.sp.val + 1 := by rw [hsp, hdepth]
  obtain ⟨u, hu, hpop, hpc, hframe⟩ := returnPopsTheReturnAddress r (by omega)
  refine ⟨u, hu, ?_, Fin.ext (by omega), ?_⟩
  · simp only [hpc, hr, hstack, Nat.add_sub_cancel, hslot]
  · rw [hframe, hstack]

/-! ### Control flow: skips -/

/-- A skip as a number: two on, mod 2^16, or not at all (R163 to R166, R250, R251). -/
theorem skipIf_pc_toNat (c : Bool) (s : State) :
    (skipIf c s).pc.toNat = (s.pc.toNat + if c then 2 else 0) % 65536 := by
  cases c
  · exact (Nat.mod_eq_of_lt s.pc.isLt).symm
  · exact BitVec.toNat_add s.pc 2

/-- The skip of SE: bytes are equal iff they are so as numbers (R163, R165). -/
theorem skipIf_beq_pc_toNat (a b : Byte) (s : State) :
    (skipIf (a == b) s).pc.toNat = (s.pc.toNat + if a.toNat = b.toNat then 2 else 0) % 65536 := by
  simp only [skipIf_pc_toNat, beq_iff_eq, BitVec.toNat_inj]

/-- The skip of SNE (R164, R166). -/
theorem skipIf_bne_pc_toNat (a b : Byte) (s : State) :
    (skipIf (a != b) s).pc.toNat = (s.pc.toNat + if a.toNat = b.toNat then 0 else 2) % 65536 := by
  simp only [skipIf_pc_toNat, bne_iff_ne, BitVec.toNat_inj, ite_not]

/-- Settles O22: each is a skip on a comparison of two bytes. -/
theorem byteSkipsMovePc : Obligations.ByteSkipsMovePc := fun x nn s =>
  ⟨⟨_, rfl, rfl, skipIf_beq_pc_toNat (readV s x) nn s⟩,
    ⟨_, rfl, rfl, skipIf_bne_pc_toNat (readV s x) nn s⟩⟩

/-- Settles O23: each is a skip on a comparison of two bytes. -/
theorem registerSkipsMovePc : Obligations.RegisterSkipsMovePc := fun x y s =>
  ⟨⟨_, rfl, rfl, skipIf_beq_pc_toNat (readV s x) (readV s y) s⟩,
    ⟨_, rfl, rfl, skipIf_bne_pc_toNat (readV s x) (readV s y) s⟩⟩

/-! ### Control flow: a parked block -/

/-- A step at a JP to its own address undoes the advance of `PC` by the jump, so that only `IW` and
what the end of a step moves are left to differ (R143, R160). -/
theorem step_of_self_jump {s : State} {nnn : Addr12} (hs : s.fault.active = false)
    (hf : fetch16 s.pc.toNat s.mem = .ok (encode (.jpAddr nnn))) (hpc : s.pc = zextAddr nnn) :
    step s = .next (finish { s with iw := encode (.jpAddr nnn) }) := by
  have hjump : exec (.jpAddr nnn) (advance (encode (.jpAddr nnn)) s) =
      .next { s with iw := encode (.jpAddr nnn) } := by
    rw [exec_jpAddr, ← hpc]
    rfl
  rw [step_of_decode_ok hs hf (decode_encode _), hjump]
  obtain ⟨hact, -⟩ | ⟨-, hc⟩ := commit_next s { s with iw := encode (.jpAddr nnn) }
  · simp [hs] at hact
  · exact hc

/-- Settles O57: what makes a block parked is its `PC`, memory and `FAULT`, and the step of a jump to
itself leaves all three. -/
theorem parkedStepMovesOnlyTheTimers : Obligations.ParkedStepMovesOnlyTheTimers := by
  rintro s ⟨hs, nnn, hf, hpc⟩
  exact ⟨_, step_of_self_jump hs hf hpc, ⟨hs, nnn, hf, hpc⟩, countDown_toNat s.dt,
    countDown_toNat s.st, rfl⟩

end Sys2Proof.Machine

namespace Sys2Proof.Machine

/-! ### Register ALU: the writes -/

/-- A byte is known by its value as a number. -/
theorem byte_eq_ofNat {b : Byte} {n : Nat} (h : b.toNat = n) : b = BitVec.ofNat 8 n := by
  subst h
  simp

/-- A write of one register writes that register only. -/
theorem onlyRegisters_writeV {x : Reg} {b b' : Byte} {s : State} (hb : b = b') :
    OnlyRegisters s (writeV x b s) fun r => if r = x then b' else readV s r :=
  ⟨fun r => hb ▸ readV_writeV x r b s, rfl⟩

/-- A write of a flag and a result writes VF and one register only, the result where both are VF
(R181, D13). -/
theorem onlyRegisters_writeFlagged {x : Reg} {c : Bool} {b b' f : Byte} {s : State} (hb : b = b')
    (hf : flagByte c = f) :
    OnlyRegisters s (writeFlagged x c b s) fun r =>
      if r = x then b' else if r = 15 then f else readV s r :=
  ⟨fun r => hb ▸ hf ▸ readV_writeFlagged x r c b s, rfl⟩

/-! ### Register ALU: results and flags as numbers -/

/-- ADD (R183, R188): the sum is taken mod 256. -/
theorem byte_add_eq_ofNat (a b : Byte) : a + b = BitVec.ofNat 8 ((a.toNat + b.toNat) % 256) :=
  byte_eq_ofNat (BitVec.toNat_add a b)

/-- SUB and SUBN (R189, R191): the difference is taken mod 256. -/
theorem byte_sub_eq_ofNat (a b : Byte) :
    a - b = BitVec.ofNat 8 ((256 + a.toNat - b.toNat) % 256) := by
  refine byte_eq_ofNat ((BitVec.toNat_sub a b).trans ?_)
  have := b.isLt
  omega

/-- SHR (R190): the shift right by one is the half. -/
theorem byte_ushiftRight_one_eq_ofNat (a : Byte) : a >>> 1 = BitVec.ofNat 8 (a.toNat / 2) :=
  byte_eq_ofNat (by rw [BitVec.toNat_ushiftRight, Nat.shiftRight_one])

/-- SHL (R192): the shift left by one is the double mod 256. -/
theorem byte_shiftLeft_one_eq_ofNat (a : Byte) :
    a <<< 1 = BitVec.ofNat 8 (a.toNat * 2 % 256) :=
  byte_eq_ofNat (by rw [BitVec.toNat_shiftLeft, Nat.shiftLeft_eq, Nat.pow_one])

/-- VF after ADD: 1 iff the sum does not fit a byte (R188). -/
theorem flagByte_carryOut (a b : Byte) :
    flagByte (carryOut a b) = if 255 < a.toNat + b.toNat then 1 else 0 := by
  simp [flagByte, carryOut]

/-- VF after a subtraction: 1 iff the minuend is at least the subtrahend (R189, R191). -/
theorem flagByte_notBorrow (a b : Byte) :
    flagByte (notBorrow a b) = if b.toNat ≤ a.toNat then 1 else 0 := by
  simp [flagByte, notBorrow]

/-- A flag is the number of its truth value (R44). -/
theorem flagByte_eq_ofNat (c : Bool) : flagByte c = BitVec.ofNat 8 c.toNat := by
  cases c <;> rfl

/-- VF after SHR: bit 0 is the remainder of the halving (R190). -/
theorem flagByte_outRight (a : Byte) : flagByte (outRight a) = BitVec.ofNat 8 (a.toNat % 2) := by
  rw [flagByte_eq_ofNat, outRight, BitVec.getLsbD, Nat.toNat_testBit, Nat.pow_zero, Nat.div_one]

/-- VF after SHL: bit 7 of a byte is its quotient by 128 (R192). -/
theorem flagByte_outLeft (a : Byte) : flagByte (outLeft a) = BitVec.ofNat 8 (a.toNat / 128) := by
  have hbit : a.toNat / 128 % 2 = a.toNat / 128 := by
    have := a.isLt
    omega
  rw [flagByte_eq_ofNat, outLeft, BitVec.getLsbD, Nat.toNat_testBit, hbit]

/-! ### Register ALU: the instructions -/

/-- Settles O26: a carry and a sum, written in the order of R181. -/
theorem addWritesSumAndCarry : Obligations.AddWritesSumAndCarry := fun x y s =>
  ⟨_, rfl, onlyRegisters_writeFlagged (byte_add_eq_ofNat (readV s x) (readV s y))
    (flagByte_carryOut (readV s x) (readV s y))⟩

/-- Settles O27: SUB and SUBN are one subtraction with the operands either way round. -/
theorem subtractionsWriteDifferenceAndNotBorrow :
    Obligations.SubtractionsWriteDifferenceAndNotBorrow := fun x y s =>
  ⟨⟨_, rfl, onlyRegisters_writeFlagged (byte_sub_eq_ofNat (readV s x) (readV s y))
      (flagByte_notBorrow (readV s x) (readV s y))⟩,
    ⟨_, rfl, onlyRegisters_writeFlagged (byte_sub_eq_ofNat (readV s y) (readV s x))
      (flagByte_notBorrow (readV s y) (readV s x))⟩⟩

/-- Settles O28: the bit shifted out at either end is a remainder or a quotient of the byte. -/
theorem shiftsWriteResultAndBitShiftedOut : Obligations.ShiftsWriteResultAndBitShiftedOut :=
  fun x _ s =>
  ⟨⟨_, rfl, onlyRegisters_writeFlagged (byte_ushiftRight_one_eq_ofNat (readV s x))
      (flagByte_outRight (readV s x))⟩,
    ⟨_, rfl, onlyRegisters_writeFlagged (byte_shiftLeft_one_eq_ofNat (readV s x))
      (flagByte_outLeft (readV s x))⟩⟩

/-- Settles O24: each is a write of one register. -/
theorem loadsAndImmediateAddWriteOneRegister : Obligations.LoadsAndImmediateAddWriteOneRegister :=
  fun x y nn s =>
  ⟨⟨_, rfl, onlyRegisters_writeV (b := nn) rfl⟩,
    ⟨_, rfl, onlyRegisters_writeV (byte_add_eq_ofNat (readV s x) nn)⟩,
    ⟨_, rfl, onlyRegisters_writeV (b := readV s y) rfl⟩⟩

/-- Settles O25: each is a write of one register, with the byte whose bits are combined (D14). -/
theorem bitwiseOpsWriteOneRegister : Obligations.BitwiseOpsWriteOneRegister := fun x y s =>
  ⟨⟨_, readV s x ||| readV s y, rfl, fun _ => BitVec.getLsbD_or, onlyRegisters_writeV rfl⟩,
    ⟨_, readV s x &&& readV s y, rfl, fun _ => BitVec.getLsbD_and, onlyRegisters_writeV rfl⟩,
    ⟨_, readV s x ^^^ readV s y, rfl, fun _ => BitVec.getLsbD_xor, onlyRegisters_writeV rfl⟩⟩

end Sys2Proof.Machine

namespace Sys2Proof.Machine

/-! ### Memory and index: the address `I + k` -/

/-- The offset counts on from the address in `I` (R75). -/
@[simp] theorem indexAddr_zero_add (s : State) (k : Nat) : indexAddr s 0 + k = indexAddr s k :=
  rfl

theorem indexAddr_succ (s : State) (k : Nat) : indexAddr s (k + 1) = indexAddr s k + 1 := rfl

/-- The addresses rise with the offset, without wrapping (R75). -/
theorem indexAddr_mono (s : State) {j k : Nat} (h : j ≤ k) : indexAddr s j ≤ indexAddr s k :=
  Nat.add_le_add_left h _

/-- The address depends on `I` alone (R75). -/
theorem indexAddr_congr {s t : State} (h : s.i = t.i) (k : Nat) : indexAddr s k = indexAddr t k := by
  rw [indexAddr, indexAddr, h]

/-- `I + V[X]`, taken mod 2^16 (R201, D17). -/
theorem add_setWidth_toNat (a : Word) (b : Byte) :
    (a + b.setWidth 16).toNat = (a.toNat + b.toNat) % 65536 := by
  rw [BitVec.toNat_add, BitVec.toNat_setWidth_of_le (by decide)]

/-- A glyph's address fits a word, so nothing wraps (R202). -/
theorem glyphAddr_toNat (b : Byte) : (glyphAddr b).toNat = 0x050 + 5 * (b.toNat % 16) := by
  refine (BitVec.toNat_ofNat ..).trans (Nat.mod_eq_of_lt ?_)
  simp only [Config.fontBase, Config.glyphBytes]
  omega

/-- Settles O29: each writes `I` with one address. -/
theorem indexInstructionsWriteI : Obligations.IndexInstructionsWriteI := fun nnn x s =>
  ⟨⟨_, rfl, zextAddr_toNat nnn, rfl⟩, ⟨_, rfl, add_setWidth_toNat s.i (readV s x), rfl⟩,
    ⟨_, rfl, glyphAddr_toNat (readV s x), rfl⟩⟩

/-! ### Memory and index: a run of bytes at `I` -/

/-- A run of bytes is stored at `I` where its addresses may be written (R203, R204). -/
theorem storeBytes_index_ok {s : State} (bytes : List Byte) (hlow : 0x200 ≤ indexAddr s 0)
    (hhigh : indexAddr s bytes.length ≤ 0x1000) : ∃ m, storeBytes (indexAddr s 0) s.mem bytes = .ok m :=
  ⟨_, storeBytes_ok bytes s.mem hlow hhigh⟩

/-- A run that was stored at `I` reads back byte by byte (R203, R204). -/
theorem peek_index_of_storeBytes_ok {s : State} {bytes : List Byte} {m : Memory}
    (hs : s.mem.wf = true) (h : storeBytes (indexAddr s 0) s.mem bytes = .ok m) {k : Nat}
    (hk : k < bytes.length) : m.peek (indexAddr s k) = bytes[k] := by
  rw [peek_of_storeBytes_ok hs h, overlaid, if_pos (indexAddr_mono s k.zero_le),
    ← indexAddr_zero_add s k, Nat.add_sub_cancel_left, List.getElem?_eq_getElem hk, Option.getD_some]

/-- A run that was stored at `I` left every byte outside it (R203, R204). -/
theorem peek_outside_of_storeBytes_ok {s : State} {bytes : List Byte} {m : Memory}
    (h : storeBytes (indexAddr s 0) s.mem bytes = .ok m) {a : Nat}
    (ha : a < indexAddr s 0 ∨ indexAddr s bytes.length ≤ a) : m.peek a = s.mem.peek a := by
  obtain ⟨rfl, -⟩ := storeBytes_inv h
  exact Memory.peek_pokes_other bytes s.mem ha

/-! ### Memory and index: LD B -/

@[simp] theorem length_bcdDigits (b : Byte) : (bcdDigits b).length = 3 := rfl

/-- The stored digits as numbers: a byte has at most three, so each fits its byte (R203). -/
theorem bcdDigits_toNat (b : Byte) :
    (bcdDigits b)[0].toNat = b.toNat / 100 ∧ (bcdDigits b)[1].toNat = b.toNat / 10 % 10 ∧
      (bcdDigits b)[2].toNat = b.toNat % 10 := by
  have := b.isLt
  simp only [bcdDigits, List.getElem_cons_zero, List.getElem_cons_succ, BitVec.toNat_ofNat]
  omega

/-- Settles O30: the three bytes stored are the digits. -/
theorem bcdStoresTheDigits : Obligations.BcdStoresTheDigits := by
  intro x s hs hlow hhigh
  obtain ⟨m, hm⟩ := storeBytes_index_ok (bcdDigits (readV s x)) hlow (Nat.succ_le_succ hhigh)
  have hget : ∀ k (hk : k < 3), m.peek (indexAddr s k) = (bcdDigits (readV s x))[k] :=
    fun k hk => peek_index_of_storeBytes_ok hs hm hk
  obtain ⟨h0, h1, h2⟩ := bcdDigits_toNat (readV s x)
  refine ⟨_, exec_ldB_iff.mpr (.inr ⟨m, hm, rfl⟩), ?_, ?_, ?_,
    fun a ha => peek_outside_of_storeBytes_ok hm ha, rfl⟩
  · rw [hget 0 (by decide), hget 1 (by decide), hget 2 (by decide), h0, h1, h2]
    omega
  · rw [hget 1 (by decide), h1]
    omega
  · rw [hget 2 (by decide), h2]
    omega

/-! ### Memory and index: LD [I], Vx and LD Vx, [I] -/

/-- The block that LD [I], Vx stored reads back as the registers (R204). -/
theorem peek_index_of_store_blockV {x r : Reg} {s : State} {m : Memory} (hs : s.mem.wf = true)
    (h : storeBytes (indexAddr s 0) s.mem (blockV s x) = .ok m) (hr : r ≤ x) :
    m.peek (indexAddr s r.val) = readV s r := by
  have hlen : r.val < (blockV s x).length := by
    rw [length_blockV]
    exact Nat.lt_succ_of_le hr
  rw [peek_index_of_storeBytes_ok hs h hlen, getElem_blockV]

/-- Settles O31: the block of registers is stored as one run. -/
theorem blockStoreWritesTheRegisters : Obligations.BlockStoreWritesTheRegisters := by
  intro x s hs hlow hhigh
  have hend : indexAddr s (blockV s x).length = indexAddr s x.val + 1 := by
    rw [length_blockV, indexAddr_succ]
  obtain ⟨m, hm⟩ := storeBytes_index_ok (blockV s x) hlow (by omega)
  exact ⟨_, exec_ldStore_iff.mpr (.inr ⟨m, hm, rfl⟩), fun r hr => peek_index_of_store_blockV hs hm hr,
    fun a ha => peek_outside_of_storeBytes_ok hm (by omega), rfl⟩

/-- Filling the registers from `V[0]` up with `n` bytes read at `I` (R205). -/
theorem getElem_fillV_index (s : State) (n : Nat) (r : Reg) :
    (fillV 0 ((List.range' (indexAddr s 0) n).map s.mem.peek) s.v)[r.val] =
      if r.val < n then s.mem.peek (indexAddr s r.val) else readV s r := by
  simp [getElem_fillV, readV]

/-- Settles O32: all the bytes are read, and fill the registers from `V[0]` up. -/
theorem blockLoadReadsTheRegisters : Obligations.BlockLoadReadsTheRegisters := by
  intro x s hhigh
  have hl := loadBytes_ok s.mem (a := indexAddr s 0) (n := x.val + 1) (.inr (Nat.succ_le_succ hhigh))
  refine ⟨_, exec_ldLoad_iff.mpr (.inr ⟨_, hl, rfl⟩), fun r => ?_, rfl⟩
  simp only [Fin.le_def, ← Nat.lt_succ_iff]
  exact getElem_fillV_index s (x.val + 1) r

/-- A block store that did not fault stored the registers, and its last address exists (R204). -/
theorem exec_ldStore_ok {x : Reg} {s t : State} (h : exec (.ldStore x) s = .next t)
    (ht : t.fault.active = false) :
    storeBytes (indexAddr s 0) s.mem (blockV s x) = .ok t.mem ∧ t.i = s.i ∧
      indexAddr s x.val ≤ 0xFFF := by
  obtain ⟨f, -, rfl⟩ | ⟨m, hm, rfl⟩ := exec_ldStore_iff.mp h
  · cases ht
  · refine ⟨hm, rfl, ?_⟩
    obtain ⟨-, hnil | ⟨-, hend⟩⟩ := storeBytes_inv hm
    · simpa [hnil] using length_blockV s x
    · rw [length_blockV] at hend
      exact Nat.le_of_succ_le_succ hend

/-- Settles O33: the load reads the bytes the store left (O32), and those are the registers. -/
theorem storeThenLoadRestoresTheRegisters : Obligations.StoreThenLoadRestoresTheRegisters := by
  intro x s t r hs h ht hmem hi
  obtain ⟨hm, hti, hhigh⟩ := exec_ldStore_ok h ht
  have haddr : ∀ k, indexAddr r k = indexAddr s k := indexAddr_congr (hi.trans hti)
  obtain ⟨u, hu, hregs, hframe⟩ := blockLoadReadsTheRegisters x r (by rw [haddr]; exact hhigh)
  refine ⟨u, hu, fun k => (hregs k).trans ?_, hframe⟩
  by_cases hk : k ≤ x
  · simp only [if_pos hk, haddr, hmem, peek_index_of_store_blockV hs hm hk]
  · simp only [if_neg hk]

/-! ### Memory and index: the first bad address -/

/-- A store's handler raises the fault its run of writes met (R203, R204). -/
theorem exec_of_storeBytes_error {i : Instr} {x : Reg} {s : State} {bytes : List Byte} {f : Fault}
    (hi : i = .ldB x ∧ bytes = bcdDigits (readV s x) ∨ i = .ldStore x ∧ bytes = blockV s x)
    (h : storeBytes (indexAddr s 0) s.mem bytes = .error f) :
    exec i s = .next (enterFault f (s.pc - 2) s.iw s) := by
  obtain ⟨rfl, rfl⟩ | ⟨rfl, rfl⟩ := hi
  · exact exec_ldB_iff.mpr (.inl ⟨f, h, rfl⟩)
  · exact exec_ldStore_iff.mpr (.inl ⟨f, h, rfl⟩)

/-- A load's or a draw's handler raises the fault its run of reads met (R205, R232). -/
theorem exec_of_loadBytes_error {i : Instr} {x y : Reg} {n : Nibble} {s : State} {len : Nat} {f : Fault}
    (hi : i = .ldLoad x ∧ len = x.val + 1 ∨ i = .drw x y n ∧ len = n.toNat)
    (h : loadBytes (indexAddr s 0) s.mem len = .error f) :
    exec i s = .next (enterFault f (s.pc - 2) s.iw s) := by
  obtain ⟨rfl, rfl⟩ | ⟨rfl, rfl⟩ := hi
  · exact exec_ldLoad_iff.mpr (.inl ⟨f, h, rfl⟩)
  · exact exec_drw_iff.mpr (.inl ⟨f, h, rfl⟩)

/-- Settles O34: the run of writes reports its first bad offset, as too high or as reserved. -/
theorem storesFaultAtTheFirstBadAddress : Obligations.StoresFaultAtTheFirstBadAddress := by
  intro x s k i hi hgood
  obtain ⟨bytes, hbytes, hk⟩ : ∃ bytes : List Byte,
      (i = .ldB x ∧ bytes = bcdDigits (readV s x) ∨ i = .ldStore x ∧ bytes = blockV s x) ∧
      k < bytes.length := by
    obtain ⟨hi, hk⟩ | ⟨hi, hk⟩ := hi
    · exact ⟨_, .inl ⟨hi, rfl⟩, Nat.lt_succ_of_le hk⟩
    · exact ⟨_, .inr ⟨hi, rfl⟩, by rw [length_blockV]; exact Nat.lt_succ_of_le hk⟩
  have herr := storeBytes_error bytes s.mem (a := indexAddr s 0) hk
    (fun j hj => (hgood j hj).imp_right Nat.lt_succ_of_le)
  constructor
  · intro hhigh
    exact exec_of_storeBytes_error hbytes ((herr (.inr hhigh)).trans (congrArg _ (if_pos hhigh)))
  · intro hlow
    have hle : ¬ 0x1000 ≤ indexAddr s k := by omega
    exact exec_of_storeBytes_error hbytes ((herr (.inl hlow)).trans (congrArg _ (if_neg hle)))

/-- Settles O35: the run of reads reports its first bad offset. -/
theorem loadsFaultAtTheFirstBadAddress : Obligations.LoadsFaultAtTheFirstBadAddress := by
  intro x y n s k i hi hgood hbad
  obtain ⟨len, hlen, hk⟩ : ∃ len : Nat,
      (i = .ldLoad x ∧ len = x.val + 1 ∨ i = .drw x y n ∧ len = n.toNat) ∧ k < len := by
    obtain ⟨hi, hk⟩ | ⟨hi, hk⟩ := hi
    · exact ⟨_, .inl ⟨hi, rfl⟩, Nat.lt_succ_of_le hk⟩
    · exact ⟨_, .inr ⟨hi, rfl⟩, hk⟩
  exact exec_of_loadBytes_error hlen
    (loadBytes_error s.mem hk hbad fun j hj => Nat.lt_succ_of_le (hgood j hj))

end Sys2Proof.Machine

namespace Sys2Proof.Machine

/-! ### The random instruction -/

/-- RND writes `V[x]` and nothing else: the byte offered to this step, masked (R220, R221). -/
theorem exec_rnd (x : Reg) (nn : Byte) (s : State) :
    exec (.rnd x nn) s = .next (writeV x (s.rnd &&& nn) s) := rfl

/-- Settles O44: a write of one register, with the byte whose bits are masked (D19). -/
theorem randomByteUnderMask : Obligations.RandomByteUnderMask := fun x nn s =>
  ⟨_, s.rnd &&& nn, exec_rnd x nn s, fun _ => BitVec.getLsbD_and, onlyRegisters_writeV rfl⟩

end Sys2Proof.Machine

namespace Sys2Proof.Machine

/-! ### Drawing: the sprite in memory and the engine's rows -/

/-- The sprite of the `n` rows at `a`, placed at row `y0`, column `x0`: a pixel is on inside its `n` rows
and 8 columns only (R230, R231, R234). -/
theorem rowsPixel_range' (y0 x0 a n : Nat) (byteAt : Nat → Byte) (row col : Nat) :
    rowsPixel y0 x0 ((List.range' a n).map byteAt) row col =
      (decide (y0 ≤ row ∧ row < y0 + n ∧ x0 ≤ col ∧ col < x0 + 8) &&
        (byteAt (a + (row - y0))).getLsbD (7 - (col - x0))) := by
  by_cases hle : y0 ≤ row
  · by_cases hn : row - y0 < n
    · have hlt : row < y0 + n := by omega
      simp [rowsPixel, runPixel, hle, hn, hlt]
    · have hlt : ¬ row < y0 + n := by omega
      simp [rowsPixel, runPixel, hn, hlt]
  · simp [rowsPixel, hle]

/-- The rows read at `I`, placed as R231 says, are the sprite. -/
theorem rowsPixel_eq_spriteOn (s : State) (x y : Reg) (n : Nibble) (row col : Nat) :
    rowsPixel (startRow (readV s y)) (startColumn (readV s x))
        ((List.range' (indexAddr s 0) n.toNat).map s.mem.peek) row col =
      spriteOn s x y n row col :=
  rowsPixel_range' ..

/-- The sprite is decided by memory, `I` and the two position registers (R230, R231). -/
theorem spriteOn_congr {r s : State} {x y : Reg} (n : Nibble) (hmem : r.mem = s.mem) (hi : r.i = s.i)
    (hx : readV r x = readV s x) (hy : readV r y = readV s y) (row col : Nat) :
    spriteOn r x y n row col = spriteOn s x y n row col := by
  simp only [spriteOn, hmem, hx, hy, indexAddr_congr hi]

/-- A flag in VF reads as 1 iff it is raised (R44). -/
theorem flagByte_eq_one_iff (c : Bool) : flagByte c = 1 ↔ c = true := by
  cases c <;> decide

/-- VF holds 0 or 1 after a flag is written (R44). -/
theorem flagByte_eq_zero_or_one (c : Bool) : flagByte c = 0 ∨ flagByte c = 1 := by
  cases c <;> decide

/-- DRW, where its sprite bytes exist, writes a canvas: every cell XORed with the sprite pixel on it, and
a collision bit that compared the sprite with the screen as it was (R232, R233). -/
theorem exec_drw_canvas {x y : Reg} {n : Nibble} {s : State}
    (h : n = 0 ∨ indexAddr s n.toNat ≤ 0x1000) :
    ∃ c : Canvas, exec (.drw x y n) s = .next (writeV flagReg (flagByte c.2) { s with fb := c.1 }) ∧
      (∀ (row : Fin 32) (col : Fin 64),
        c.1[row.val][col.val] = (s.fb[row.val][col.val] ^^ spriteOn s x y n row col)) ∧
      (c.2 = true ↔ ∃ (row : Fin 32) (col : Fin 64),
        s.fb[row.val][col.val] = true ∧ spriteOn s x y n row col = true) := by
  have hl := loadBytes_ok s.mem (a := indexAddr s 0) (n := n.toNat) (h.imp_left (congrArg _))
  refine ⟨_, exec_drw_iff.mpr (.inr ⟨_, _, hl, rfl, rfl⟩), fun row col => ?_, ?_⟩
  · rw [drawRows_cell _ _ _ _ _ _ row.isLt col.isLt, rowsPixel_eq_spriteOn]
  · simp only [drawRows_hit, rowsPixel_eq_spriteOn, Bool.false_eq_true, false_or]
    constructor
    · rintro ⟨row, col, hr, hc, hon, hcell⟩
      exact ⟨⟨row, hr⟩, ⟨col, hc⟩, hcell, hon⟩
    · rintro ⟨row, col, hcell, hon⟩
      exact ⟨row, col, row.isLt, col.isLt, hon, hcell⟩

/-- Settles O45: the canvas is the new framebuffer, and its collision bit the new VF (R235, D12). -/
theorem drawXorsTheSpriteAndReportsCollision : Obligations.DrawXorsTheSpriteAndReportsCollision := by
  intro x y n s h
  obtain ⟨c, hc, hcell, hhit⟩ := exec_drw_canvas (x := x) (y := y) h
  have hvf : readV (writeV flagReg (flagByte c.2) { s with fb := c.1 }) 15 = flagByte c.2 :=
    readV_writeV flagReg 15 _ _
  refine ⟨_, hc, hcell, ?_, ?_, fun r hr => ?_, rfl⟩
  · rw [hvf, flagByte_eq_one_iff, hhit]
  · rw [hvf]
    exact flagByte_eq_zero_or_one c.2
  · exact (readV_writeV flagReg r _ _).trans (if_neg hr)

/-! ### Drawing twice -/

/-- Two framebuffers with the same cells are the same (R40). -/
theorem framebuffer_ext {a b : Framebuffer}
    (h : ∀ (row : Fin 32) (col : Fin 64), a[row.val][col.val] = b[row.val][col.val]) : a = b :=
  Vector.ext fun row hrow => Vector.ext fun col hcol => h ⟨row, hrow⟩ ⟨col, hcol⟩

/-- An on pixel leaves its cell on iff the cell was off (R232). -/
theorem xor_pixel_on_iff (cell on : Bool) :
    ((cell ^^ on) = true ∧ on = true) ↔ (cell = false ∧ on = true) := by
  cases on <;> simp

/-- Settles O46: both draws XOR the same sprite (O45), so the second undoes the first, and meets the
cells the first left on. -/
theorem drawingTwiceRestoresTheScreen : Obligations.DrawingTwiceRestoresTheScreen := by
  intro x y n s t r u h hst hfb hmem hi hx hy hru
  have hr : n = 0 ∨ indexAddr r n.toNat ≤ 0x1000 := by rwa [indexAddr_congr hi]
  obtain ⟨t', ht, hcell, -⟩ := drawXorsTheSpriteAndReportsCollision x y n s h
  obtain ⟨u', hu, hcell', hvf', -⟩ := drawXorsTheSpriteAndReportsCollision x y n r hr
  cases hst.symm.trans ht
  cases hru.symm.trans hu
  simp only [hfb, hcell, spriteOn_congr n hmem hi hx hy] at hcell' hvf'
  refine ⟨framebuffer_ext fun row col => ?_, ?_⟩
  · rw [hcell', Bool.xor_assoc, Bool.xor_self, Bool.xor_false]
  · simp only [hvf', xor_pixel_on_iff]

end Sys2Proof.Machine

namespace Sys2Proof.Machine

/-! ### Input: the keys -/

/-- No key is taken iff none of the sixteen is pressed (R252, D9). -/
theorem lowestPressed_eq_none_iff {s : State} :
    lowestPressed s = none ↔ ∀ k : Key, pressed s k = false := by
  rw [lowestPressed, ← Fin.find?_eq_find?_finRange, Fin.find?_eq_none_iff]

/-- The key taken is the pressed one with none pressed below it (R252, D9). -/
theorem lowestPressed_eq_some_iff {s : State} {k : Key} :
    lowestPressed s = some k ↔ pressed s k = true ∧ ∀ j < k, pressed s j = false := by
  rw [lowestPressed, ← Fin.find?_eq_find?_finRange, Fin.find?_eq_some_iff]

/-- A byte below 16 names the key of its number (R250, R251). -/
theorem keyNumber_eq_some {b : Byte} (h : b.toNat < 16) : keyNumber b = some ⟨b.toNat, h⟩ :=
  dif_pos h

/-- A byte above 15 names no key (D18). -/
theorem keyNumber_eq_none {b : Byte} (h : 15 < b.toNat) : keyNumber b = none :=
  dif_neg (Nat.not_lt.mpr h)

/-! ### Input: waiting for a key -/

/-- Settles O50, by which key is the lowest pressed one. -/
theorem keyWaitStoresTheLowestKey : Obligations.KeyWaitStoresTheLowestKey := by
  refine fun x s => ⟨fun hnone => ?_, fun k hk hlow => ?_⟩
  · exact ⟨_, exec_ldVxK_iff.mpr (.inl ⟨lowestPressed_eq_none_iff.mpr hnone, rfl⟩),
      BitVec.sub_add_cancel s.pc 2, rfl⟩
  · exact ⟨_, exec_ldVxK_iff.mpr (.inr ⟨k, lowestPressed_eq_some_iff.mpr ⟨hk, hlow⟩, rfl⟩),
      onlyRegisters_writeV rfl⟩

/-- A step whose handler raised no fault ends with the decay and the next random offer (R147). -/
theorem step_of_exec_ok {s u : State} {w : Word} {i : Instr} (hs : s.fault.active = false)
    (hf : fetch16 s.pc.toNat s.mem = .ok w) (hd : decode w = .ok i)
    (hu : exec i (advance w s) = .next u) (hok : u.fault.active = false) :
    step s = .next (finish u) := by
  rw [step_of_decode_ok hs hf hd, hu]
  obtain ⟨hact, -⟩ | ⟨-, hc⟩ := commit_next s u
  · simp [hok] at hact
  · exact hc

/-- On the working copy of its own word, a waiting LD Vx, K undoes the advance of `PC`, so that only
`IW` is left to differ (R143, R252). -/
theorem exec_ldVxK_advance_waiting {s : State} (w : Word) (x : Reg)
    (h : ∀ k : Key, pressed s k = false) :
    exec (.ldVxK x) (advance w s) = .next { s with iw := w } := by
  refine exec_ldVxK_iff.mpr (.inl ⟨lowestPressed_eq_none_iff.mpr h, ?_⟩)
  rw [advance_pc, BitVec.add_sub_cancel]
  rfl

/-- Settles O51: the handler leaves the state before the step but for `IW`, and the step ends with the
decay. -/
theorem waitingStepStaysAndDecays : Obligations.WaitingStepStaysAndDecays := fun s w x hs hf hd hnone =>
  ⟨_, step_of_exec_ok hs hf hd (exec_ldVxK_advance_waiting w x hnone) hs, countDown_toNat s.dt,
    countDown_toNat s.st, rfl, rfl⟩

/-! ### Input: the key skips -/

/-- The skip of SKNP: two on unless the condition holds (R251). -/
theorem skipIf_not_pc_toNat (c : Bool) (s : State) :
    (skipIf (!c) s).pc.toNat = (s.pc.toNat + if c then 0 else 2) % 65536 := by
  simp only [skipIf_pc_toNat, Bool.not_eq_true', ← Bool.not_eq_true, ite_not]

/-- Settles O48: each is a skip on the key the register names. -/
theorem keySkipsMovePc : Obligations.KeySkipsMovePc := by
  intro x s h
  have hkey := keyNumber_eq_some h
  exact ⟨⟨_, exec_skp_iff.mpr (.inr ⟨_, hkey, rfl⟩), rfl, skipIf_pc_toNat _ s⟩,
    ⟨_, exec_sknp_iff.mpr (.inr ⟨_, hkey, rfl⟩), rfl, skipIf_not_pc_toNat _ s⟩⟩

/-- A key fault records the register's value, extended to 16 bits (R50, R300). -/
theorem faultAddr_keyRange (b : Byte) : faultAddr (.keyRange b) = BitVec.ofNat 16 b.toNat :=
  (BitVec.ofNat_toNat 16 b).symm

/-- Settles O49: the register names no key, so the handler raises the fault. -/
theorem keyOutOfRangeFaults : Obligations.KeyOutOfRangeFaults := by
  intro x s i hi h
  have hnone := keyNumber_eq_none h
  rw [← faultAddr_keyRange]
  obtain rfl | rfl := hi
  · exact exec_skp_iff.mpr (.inl ⟨hnone, rfl⟩)
  · exact exec_sknp_iff.mpr (.inl ⟨hnone, rfl⟩)

end Sys2Proof.Machine

namespace Sys2Proof.Machine

/-! ### Timers -/

/-- LD Vx, DT on any state: the timer is read before this step's decay (R260). -/
theorem exec_ldVxDt (x : Reg) (s : State) : exec (.ldVxDt x) s = .next (writeV x s.dt s) := rfl

/-- LD DT, Vx on any state (R261). -/
theorem exec_ldDtVx (x : Reg) (s : State) :
    exec (.ldDtVx x) s = .next { s with dt := readV s x } := rfl

/-- LD ST, Vx on any state (R262). -/
theorem exec_ldStVx (x : Reg) (s : State) :
    exec (.ldStVx x) s = .next { s with st := readV s x } := rfl

/-- Settles O52: one is a write of one register, the other two of one timer. -/
theorem timerInstructionsMoveTheTimers : Obligations.TimerInstructionsMoveTheTimers := fun x s =>
  ⟨⟨_, exec_ldVxDt x s, onlyRegisters_writeV rfl⟩, ⟨_, exec_ldDtVx x s, rfl, rfl⟩,
    ⟨_, exec_ldStVx x s, rfl, rfl⟩⟩

/-- Settles O14: the handler sets one timer on the working copy, whose registers are those before the
step, and the end of the step counts both timers down once, the new value too (R147, R352). -/
theorem setTimerDecaysInTheSameStep : Obligations.SetTimerDecaysInTheSameStep := by
  refine fun s w x hs hf => ⟨fun hd => ?_, fun hd => ?_⟩
  · exact ⟨_, step_of_exec_ok hs hf hd (exec_ldDtVx x (advance w s)) hs,
      countDown_toNat (readV s x), countDown_toNat s.st, rfl, rfl, rfl⟩
  · exact ⟨_, step_of_exec_ok hs hf hd (exec_ldStVx x (advance w s)) hs,
      countDown_toNat (readV s x), countDown_toNat s.dt, rfl, rfl, rfl⟩

end Sys2Proof.Machine

namespace Sys2Proof.Machine

/-! ### Display: the clear -/

/-- CLS on any state (R270). -/
theorem exec_cls (s : State) : exec .cls s = .next { s with fb := clearScreen } := rfl

/-- A cleared screen shows nothing (R270). -/
theorem clearScreen_off (row : Fin 32) (col : Fin 64) :
    clearScreen[row.val][col.val] = false := by
  simp [clearScreen]

/-- Settles O47: the screen becomes the cleared one. -/
theorem clearTurnsEveryCellOff : Obligations.ClearTurnsEveryCellOff := fun s =>
  ⟨_, exec_cls s, clearScreen_off, rfl⟩

/-! ### Exceptions: which handler raises which fault -/

/-- The "raised by" column of R300 for the handlers; the fetch's and the decode phase's faults are no
handler's. -/
def Fault.raisedBy : Fault → Instr → Prop
  | .addressing .fetch _, _ => False
  | .addressing .read _, i => (∃ x y n, i = .drw x y n) ∨ ∃ x, i = .ldLoad x
  | .addressing .write _, i => ∃ x, i = .ldB x ∨ i = .ldStore x
  | .decode, _ => False
  | .stackOverflow, i => ∃ n, i = .callAddr n
  | .stackUnderflow, i => i = .ret
  | .reservedWrite _, i => ∃ x, i = .ldB x ∨ i = .ldStore x
  | .keyRange _, i => ∃ x, i = .skp x ∨ i = .sknp x

/-- The fault of a run of reads belongs to the instructions that read memory (R80). -/
theorem raisedBy_of_loadBytes_error {a n : Nat} {m : Memory} {f : Fault} {i : Instr}
    (h : loadBytes a m n = .error f) (hi : (∃ x y n, i = .drw x y n) ∨ ∃ x, i = .ldLoad x) :
    f.raisedBy i := by
  obtain ⟨b, rfl⟩ := loadBytes_error_kind h
  exact hi

/-- Either fault of a run of writes belongs to the instructions that write memory (R80, R81). -/
theorem raisedBy_of_storeBytes_error {a : Nat} {bytes : List Byte} {m : Memory} {f : Fault} {i : Instr}
    (h : storeBytes a m bytes = .error f) (hi : ∃ x, i = .ldB x ∨ i = .ldStore x) : f.raisedBy i := by
  obtain ⟨b, rfl⟩ | ⟨b, rfl⟩ := storeBytes_error_kind h
  · exact hi
  · exact hi

/-- A handler that changed `FAULT` entered, on the state it ran on, a fault its rule names (R300,
R310). -/
theorem exec_enters_raisedBy {i : Instr} {s t : State} (h : exec i s = .next t)
    (hne : t.fault ≠ s.fault) : ∃ f : Fault, f.raisedBy i ∧ t = enterFault f (s.pc - 2) s.iw s := by
  cases i
  case ret =>
    obtain ⟨-, ht⟩ | ⟨-, rfl⟩ := exec_ret_iff.mp h
    · exact ⟨.stackUnderflow, rfl, ht⟩
    · exact absurd rfl hne
  case callAddr n =>
    obtain ⟨-, ht⟩ | ⟨_, rfl⟩ := exec_callAddr_iff.mp h
    · exact ⟨.stackOverflow, ⟨n, rfl⟩, ht⟩
    · exact absurd rfl hne
  case skp x =>
    obtain ⟨-, ht⟩ | ⟨_, -, rfl⟩ := exec_skp_iff.mp h
    · exact ⟨.keyRange _, ⟨x, .inl rfl⟩, ht⟩
    · exact absurd rfl hne
  case sknp x =>
    obtain ⟨-, ht⟩ | ⟨_, -, rfl⟩ := exec_sknp_iff.mp h
    · exact ⟨.keyRange _, ⟨x, .inr rfl⟩, ht⟩
    · exact absurd rfl hne
  case ldVxK =>
    obtain ⟨-, rfl⟩ | ⟨_, -, rfl⟩ := exec_ldVxK_iff.mp h <;> exact absurd rfl hne
  case drw x y n =>
    obtain ⟨f, hf, ht⟩ | ⟨_, _, -, -, rfl⟩ := exec_drw_iff.mp h
    · exact ⟨f, raisedBy_of_loadBytes_error hf (.inl ⟨x, y, n, rfl⟩), ht⟩
    · exact absurd rfl hne
  case ldLoad x =>
    obtain ⟨f, hf, ht⟩ | ⟨_, -, rfl⟩ := exec_ldLoad_iff.mp h
    · exact ⟨f, raisedBy_of_loadBytes_error hf (.inr ⟨x, rfl⟩), ht⟩
    · exact absurd rfl hne
  case ldB x =>
    obtain ⟨f, hf, ht⟩ | ⟨_, -, rfl⟩ := exec_ldB_iff.mp h
    · exact ⟨f, raisedBy_of_storeBytes_error hf ⟨x, .inl rfl⟩, ht⟩
    · exact absurd rfl hne
  case ldStore x =>
    obtain ⟨f, hf, ht⟩ | ⟨_, -, rfl⟩ := exec_ldStore_iff.mp h
    · exact ⟨f, raisedBy_of_storeBytes_error hf ⟨x, .inr rfl⟩, ht⟩
    · exact absurd rfl hne
  all_goals
    cases h
    exact absurd rfl hne

/-- The code and the kind of a handler's fault, with its instructions: the rows of R300 (R50). -/
theorem faultCode_of_raisedBy {f : Fault} {i : Instr} (h : f.raisedBy i) :
    (faultCode f = 1 ∧ faultKind f = 1 ∧ ((∃ x y n, i = .drw x y n) ∨ ∃ x, i = .ldLoad x)) ∨
    (faultCode f = 1 ∧ faultKind f = 2 ∧ ∃ x, i = .ldB x ∨ i = .ldStore x) ∨
    (faultCode f = 3 ∧ faultKind f = 0 ∧ ∃ n, i = .callAddr n) ∨
    (faultCode f = 4 ∧ faultKind f = 0 ∧ i = .ret) ∨
    (faultCode f = 5 ∧ faultKind f = 0 ∧ ∃ x, i = .ldB x ∨ i = .ldStore x) ∨
    (faultCode f = 6 ∧ faultKind f = 0 ∧ ∃ x, i = .skp x ∨ i = .sknp x) :=
  match f with
  | .addressing .read _ => .inl ⟨rfl, rfl, h⟩
  | .addressing .write _ => .inr (.inl ⟨rfl, rfl, h⟩)
  | .stackOverflow => .inr (.inr (.inl ⟨rfl, rfl, h⟩))
  | .stackUnderflow => .inr (.inr (.inr (.inl ⟨rfl, rfl, h⟩)))
  | .reservedWrite _ => .inr (.inr (.inr (.inr (.inl ⟨rfl, rfl, h⟩))))
  | .keyRange _ => .inr (.inr (.inr (.inr (.inr ⟨rfl, rfl, h⟩))))

/-- Settles O40: fault entry changes `FAULT` alone, and its record is that of a fault the handler's rule
names. -/
theorem onlyTheNamedInstructionsRaiseEachFault :
    Obligations.OnlyTheNamedInstructionsRaiseEachFault := by
  intro i s t h hne
  obtain ⟨f, hf, rfl⟩ := exec_enters_raisedBy h hne
  exact ⟨rfl, rfl, faultCode_of_raisedBy hf⟩

/-! ### The host: the load and the sessions -/

/-- An image fits from 0x200 to the end of memory (R7, R346). -/
theorem imageFits_iff {image : List Byte} : imageFits image = true ↔ image.length ≤ 3584 :=
  decide_eq_true_iff

/-- The load takes an image of at most 3584 bytes and writes it to memory from 0x200 up (R346). -/
theorem hostLoad_eq_some_iff {image : List Byte} {s t : State} :
    hostLoad image s = some t ↔
      image.length ≤ 3584 ∧ t = { s with mem := s.mem.pokes 0x200 image } := by
  simp only [hostLoad, Option.ite_none_right_eq_some, Option.some.injEq, imageFits_iff, Config.progBase,
    eq_comm (a := t)]

/-- The load refuses exactly a longer image (R304, R346). -/
theorem hostLoad_eq_none_iff {image : List Byte} {s : State} :
    hostLoad image s = none ↔ 3584 < image.length := by
  simp [hostLoad, imageFits_iff]

/-- Settles O58: an image that fits ends inside memory, so every byte of it can be read back. -/
theorem loadCopiesTheImage : Obligations.LoadCopiesTheImage := by
  refine fun image s hs => ⟨fun hfit => ?_, hostLoad_eq_none_iff.mpr⟩
  have hend : 0x200 + image.length ≤ 0x1000 := by omega
  exact ⟨_, hostLoad_eq_some_iff.mpr ⟨hfit, rfl⟩, fun k hk => Memory.peek_pokes image hs hk hend,
    fun a => Memory.peek_pokes_other image s.mem, rfl⟩

/-- The invariant speaks of memory, the stack, `PC` and `FAULT` only. -/
theorem Inv.of_eq {s t : State} (hs : Inv s) (hm : t.mem = s.mem) (hk : t.stack = s.stack)
    (hp : t.pc = s.pc) (hf : t.fault = s.fault) : Inv t where
  memCanonical := hm ▸ hs.memCanonical
  reservedIntact a ha := hm ▸ hs.reservedIntact a ha
  stackBound j := by
    rw [hk]
    exact hs.stackBound j
  pcBound := hp ▸ hs.pcBound
  faultLegal := hf ▸ hs.faultLegal

/-- The load keeps the invariant: it begins above the reserved bytes (R81, R346). -/
theorem Inv.hostLoad {image : List Byte} {s t : State} (hs : Inv s)
    (h : hostLoad image s = some t) : Inv t := by
  obtain ⟨-, rfl⟩ := hostLoad_eq_some_iff.mp h
  exact ⟨Memory.wf_pokes image hs.memCanonical, fun a ha =>
    (Memory.peek_pokes_other image s.mem (.inl ha)).trans (hs.reservedIntact a ha),
    hs.stackBound, hs.pcBound, hs.faultLegal⟩

/-- Settles O56, by induction over the session: reset gives the invariant and every transaction keeps
it. -/
theorem everySessionKeepsTheInvariant : Obligations.EverySessionKeepsTheInvariant := by
  intro p s h
  induction h with
  | start => exact resetSatisfiesTheInvariant
  | reset _ _ => exact resetSatisfiesTheInvariant.of_eq rfl rfl rfl rfl
  | load _ hload ih => exact ih.hostLoad hload
  | keys _ _ ih => exact ih.of_eq rfl rfl rfl rfl
  | rnd _ _ ih => exact ih.of_eq rfl rfl rfl rfl
  | step _ hstep ih => exact stepKeepsTheInvariant _ _ ih hstep

/-! ### Exceptions: every handler and every step answers -/

/-- Where a handler has something to check, both sides of the check are next states (log 3, log 16). -/
theorem exec_answers (i : Instr) (s : State) : ∃ t, exec i s = .next t := by
  cases i
  case ret =>
    by_cases hsp : s.sp.val = 0
    · exact ⟨_, exec_ret_iff.mpr (.inl ⟨hsp, rfl⟩)⟩
    · exact ⟨_, exec_ret_iff.mpr (.inr ⟨hsp, rfl⟩)⟩
  case callAddr =>
    by_cases hsp : s.sp.val = 16
    · exact ⟨_, exec_callAddr_iff.mpr (.inl ⟨hsp, rfl⟩)⟩
    · exact ⟨_, exec_callAddr_iff.mpr (.inr ⟨hsp, rfl⟩)⟩
  case skp x =>
    cases hk : keyNumber (readV s x) with
    | none => exact ⟨_, exec_skp_iff.mpr (.inl ⟨hk, rfl⟩)⟩
    | some k => exact ⟨_, exec_skp_iff.mpr (.inr ⟨k, hk, rfl⟩)⟩
  case sknp x =>
    cases hk : keyNumber (readV s x) with
    | none => exact ⟨_, exec_sknp_iff.mpr (.inl ⟨hk, rfl⟩)⟩
    | some k => exact ⟨_, exec_sknp_iff.mpr (.inr ⟨k, hk, rfl⟩)⟩
  case ldVxK =>
    cases hk : lowestPressed s with
    | none => exact ⟨_, exec_ldVxK_iff.mpr (.inl ⟨hk, rfl⟩)⟩
    | some k => exact ⟨_, exec_ldVxK_iff.mpr (.inr ⟨k, hk, rfl⟩)⟩
  case drw x y n =>
    cases hl : loadBytes (indexAddr s 0) s.mem n.toNat with
    | error f => exact ⟨_, exec_drw_iff.mpr (.inl ⟨f, hl, rfl⟩)⟩
    | ok rows => exact ⟨_, exec_drw_iff.mpr (.inr ⟨rows, _, hl, rfl, rfl⟩)⟩
  case ldLoad x =>
    cases hl : loadBytes (indexAddr s 0) s.mem (x.val + 1) with
    | error f => exact ⟨_, exec_ldLoad_iff.mpr (.inl ⟨f, hl, rfl⟩)⟩
    | ok bytes => exact ⟨_, exec_ldLoad_iff.mpr (.inr ⟨bytes, hl, rfl⟩)⟩
  case ldB x =>
    cases hm : storeBytes (indexAddr s 0) s.mem (bcdDigits (readV s x)) with
    | error f => exact ⟨_, exec_ldB_iff.mpr (.inl ⟨f, hm, rfl⟩)⟩
    | ok m => exact ⟨_, exec_ldB_iff.mpr (.inr ⟨m, hm, rfl⟩)⟩
  case ldStore x =>
    cases hm : storeBytes (indexAddr s 0) s.mem (blockV s x) with
    | error f => exact ⟨_, exec_ldStore_iff.mpr (.inl ⟨f, hm, rfl⟩)⟩
    | ok m => exact ⟨_, exec_ldStore_iff.mpr (.inr ⟨m, hm, rfl⟩)⟩
  all_goals exact ⟨_, rfl⟩

/-- Each phase of a step either ends it in a next state or hands on to the next phase (R149). -/
theorem step_answers (s : State) : ∃ t, step s = .next t := by
  cases hact : s.fault.active with
  | true => exact ⟨s, haltedStepChangesNothing s hact⟩
  | false =>
    cases hf : fetch16 s.pc.toNat s.mem with
    | error f => exact ⟨_, step_of_fetch_error hact hf⟩
    | ok w =>
      cases hd : decode w with
      | error r => exact ⟨_, step_of_decode_error hact hf hd⟩
      | ok i =>
        obtain ⟨u, hu⟩ := exec_answers i (advance w s)
        rw [step_of_decode_ok hact hf hd, hu]
        obtain ⟨-, hc⟩ | ⟨-, hc⟩ := commit_next s u <;> exact ⟨_, hc⟩

/-- Settles O11, by the check of each handler and by the phases of the step. -/
theorem stepAlwaysAnswersANextState : Obligations.StepAlwaysAnswersANextState :=
  ⟨exec_answers, step_answers⟩

end Sys2Proof.Machine
